-- ==== Sys2Proof/Word.lean ====
section
/-! DEFINITION. Word.lean: the machine's words and register indices (00_scope.md section 4: XLEN = 32, FLEN = 32, 32
registers in each file; 30_encoding.md rule R61: register indices are 5-bit fields). -/

namespace Sys2Proof

/-- The 32-bit value of an integer register, of the program counter, of an address and of a float register's raw
pattern (10_state.md rules R13, R20, R23; 00_scope.md rule R9). `+` and `-` on it are modulo 2^32 (rule R91). -/
abbrev Word := BitVec 32

/-- One byte of data memory (10_state.md rule R27). -/
abbrev Byte := BitVec 8

/-- A 5-bit index into the integer file `x[0..31]` (30_encoding.md rule R61). -/
abbrev XReg := BitVec 5

/-- A 5-bit index into the float file `f[0..31]` (30_encoding.md rule R61, 45_fp_move.md rule R165). -/
abbrev FReg := BitVec 5

end Sys2Proof
end

