-- ==== Sys2Proof/Config.lean ====
section
/-! DEFINITION. Config.lean: the parameters of the block (00_scope.md section 4 and rule R12), as plain data, and the
reference configuration `CFG-REF` (rule R10).

The spec gives no address, no initial value and no program: it takes them as arguments. So does this model: a `Params` is a
field of State that no instruction changes, every statement about "every state" is a statement about every value of the
parameters, and `State.reset` alone fixes them (log entries 1 to 5). The remaining parameter, `HOST_ECALL`, is a function of
the state and the host's, not the block's: Machine/Debugger.lean takes it as an argument (log entry 6).

There is no free value in this file: the step is total and deterministic, and "the source leaves no value, order or election
open inside a step" (70_reset_and_hazards.md rule R228). -/

namespace Sys2Proof

/-- Data memory `M`: the listed (address, byte) pairs; Machine/Ops.lean says what an unlisted address reads as
(10_state.md rule R27). -/
abbrev Memory := List Host.Cell

/-- A closed address range `[base, limit]`. -/
structure AddrRange where
  base : Word
  limit : Word
  deriving DecidableEq, Repr

/-- `SEGMENTS`: the four named ranges (20_memory.md rule R40). -/
structure Segments where
  text : AddrRange
  data : AddrRange
  heap : AddrRange
  stack : AddrRange
  deriving DecidableEq, Repr

/-- `TEXT_PERM`: what a load or store may do in the text segment (20_memory.md rule R41). -/
inductive TextPerm where
  /-- neither load nor store (the default) -/
  | none
  /-- load only -/
  | load
  /-- load and store -/
  | loadStore
  deriving DecidableEq, Repr

/-- One statement of the linked program: its address, its machine code and its mnemonic (10_state.md rule R29). The block
uses the machine code alone (00_scope.md rule R11); the mnemonic is there for the premise of 30_encoding.md rule R69. -/
structure Statement where
  address : Word
  code : Word
  mnemonic : String
  deriving DecidableEq, Repr

/-- The parameters of the block (00_scope.md section 4), fixed for a run (10_state.md rule R35). -/
structure Params where
  /-- `SEGMENTS` -/
  segments : Segments
  /-- `RESERVED` -/
  reserved : List AddrRange
  /-- `TEXT_PERM` -/
  textPerm : TextPerm
  /-- `MEM_INIT` -/
  memInit : Memory
  /-- `XREG_INIT[1..31]`; `XREG_INIT[0]` is 0 and has no cell (log entry 3) -/
  xregInit : Vector Word 31
  /-- `FREG_INIT[0..31]` -/
  fregInit : Vector Word 32
  /-- `PROGRAM`: the statements in program order -/
  program : List Statement
  /-- `PC_INIT` -/
  pcInit : Word
  deriving DecidableEq, Repr

namespace Config

/-- The segments of `CFG-REF` (rule R10). -/
def refSegments : Segments where
  text := ⟨0x00010000#32, 0x0FFFFFFF#32⟩
  data := ⟨0x10000000#32, 0x10007FFF#32⟩
  heap := ⟨0x10008000#32, 0x1FFFFFFF#32⟩
  stack := ⟨0x70000000#32, 0x7FFFFFFF#32⟩

/-- The reserved ranges of `CFG-REF` (rule R10). -/
def refReserved : List AddrRange :=
  [⟨0x00000000#32, 0x0000FFFF#32⟩, ⟨0x80000000#32, 0xFFFFFFFF#32⟩]

/-- DESIGN CHOICE, unsafe (log entries 1 to 5). `CFG-REF` (rule R10) with no statement in the program store: the parameters
of `State.reset`. The spec says of it that it "carries no authority". -/
def cfgRef : Params where
  segments := refSegments
  reserved := refReserved
  textPerm := .none
  memInit := []
  xregInit := Vector.replicate 31 0#32
  fregInit := Vector.replicate 32 0#32
  program := []
  pcInit := 0x00010000#32

end Config

end Sys2Proof
end

