-- ==== Sys2Proof/Machine/State.lean ====
section
/-! DEFINITION. Machine/State.lean: the state of the block, the reasons a step can stop, and the state after reset
(10_state.md, 60_exceptions.md rules R180, R184, 70_reset_and_hazards.md rule R220). -/

namespace Sys2Proof.Machine

/-- A warning that a step emits (60_exceptions.md rule R182: there is one kind). -/
inductive Warning where
  /-- `ReservedRead(addr)`: a load from a reserved range -/
  | reservedRead (addr : Word)
  deriving DecidableEq, Repr

/-- The output port that holds what the last step reported (00_scope.md rule R11 (e)) when it was no fault: the outcomes
of 60_exceptions.md rule R180 other than `Fault`. -/
inductive Report where
  /-- no step has been taken since reset -/
  | idle
  /-- `Retired(S', W)`: the instruction executed, with the warnings `W` -/
  | retired (warnings : List Warning)
  /-- `EnvCall(pc)`: a request to the host by the `ecall` at `pc`; not a fault (rule R191) -/
  | envCall (pc : Word)
  /-- `Break(pc)`: the `ebreak` at `pc`; not a fault (rule R192) -/
  | brk (pc : Word)
  deriving DecidableEq, Repr

/-- The state of the block. `x`, `pc`, `f`, `mem` are the tuple `S = (x[1..31], pc, f[0..31], M)` of 10_state.md rule R35;
`params` holds what is fixed for a run and `report` the output port (log entries 1 and 7). -/
structure State where
  /-- `x[1..31]`: the integer file; `x[0]` is hardwired and has no cell (rules R13 to R15) -/
  x : Vector Word 31
  /-- the program counter, a cell of its own (rule R20) -/
  pc : Word
  /-- `f[0..31]`: the float file, raw patterns (rules R23, R24) -/
  f : Vector Word 32
  /-- `M`: data memory (rule R27) -/
  mem : Memory
  /-- the parameters of the step, the program store among them (00_scope.md rule R12, 10_state.md rule R29) -/
  params : Params
  /-- what the last step reported (00_scope.md rule R11 (e)) -/
  report : Report
  deriving DecidableEq, Repr

/-- The six fault kinds of 60_exceptions.md rule R184, each with the information it carries. A fault leaves the whole state
as it was (rule R183): the state before the step is the state after it. Every one is the spec's own, so each is exact. -/
inductive Fault where
  /-- `FetchFault(pc)`: no statement at `pc`; raised by the fetch of any step (rule R185). Safe: the spec's own fault. -/
  | fetchFault (pc : Word)
  /-- `IllegalInstruction(pc, inst)`: the word decodes to nothing; raised by the decode of any step (rule R186). Safe: the
  spec's own fault. -/
  | illegalInstruction (pc inst : Word)
  /-- `LoadAccessFault(pc, addr)`: raised by `lb lh lw lbu lhu` (rule R188). Safe: the spec's own fault. -/
  | loadAccessFault (pc addr : Word)
  /-- `LoadMisaligned(pc, addr)`: raised by `lh lw lhu` (rule R187). Safe: the spec's own fault. -/
  | loadMisaligned (pc addr : Word)
  /-- `StoreAccessFault(pc, addr)`: raised by `sb sh sw` (rule R190). Safe: the spec's own fault. -/
  | storeAccessFault (pc addr : Word)
  /-- `StoreMisaligned(pc, addr)`: raised by `sh sw` (rule R189). Safe: the spec's own fault. -/
  | storeMisaligned (pc addr : Word)
  deriving DecidableEq, Repr

/-- The reasons this model gives no meaning. Every instruction of the table has one, so no step answers a refusal. -/
inductive Refusal where
  /-- an instruction with no meaning in this model yet, by its mnemonic; raised by nothing. Safe: it stops. -/
  | notModelled (mnemonic : String)
  deriving DecidableEq, Repr

/-- The state that the reset transition leaves under the parameters `p` (70_reset_and_hazards.md rule R220). -/
def State.ofParams (p : Params) : State where
  x := p.xregInit
  pc := p.pcInit
  f := p.fregInit
  mem := p.memInit
  params := p
  report := .idle

/-- The machine right after reset in the reference configuration (10_state.md rules R32, R33; log entries 1 to 5). -/
def State.reset : State := State.ofParams Config.cfgRef

end Sys2Proof.Machine
end

