-- ==== Sys2Proof/Machine/Ops.lean ====
section
/-! DEFINITION. Machine/Ops.lean: the named operations over registers and memory, the checks of an access, retiring and
raising (10_state.md sections 1 to 3, 20_memory.md sections 3 to 6, 60_exceptions.md rules R180 to R184). -/

namespace Sys2Proof.Machine

-- Registers.

/-- `x[r]` (10_state.md rule R14): `x[0]` reads 0. -/
def State.readX (s : State) (r : XReg) : Word :=
  if h : r.toNat = 0 then 0#32 else s.x[r.toNat - 1]'(by omega)

/-- `x[r] <- v` (10_state.md rule R15): a write to `x[0]` is discarded. -/
def State.writeX (s : State) (r : XReg) (v : Word) : State :=
  if h : r.toNat = 0 then s else { s with x := s.x.set (r.toNat - 1) v (by omega) }

/-- `f[r]` (10_state.md rule R24): no float register is hardwired. -/
def State.readF (s : State) (r : FReg) : Word := s.f[r.toNat]'(by omega)

/-- `f[r] <- v` (10_state.md rule R24), bit for bit. -/
def State.writeF (s : State) (r : FReg) (v : Word) : State :=
  { s with f := s.f.set r.toNat v (by omega) }

/-- `pc <- target` (10_state.md rules R20, R22): checks nothing. -/
def State.setPc (s : State) (target : Word) : State := { s with pc := target }

/-- Drives the output port (00_scope.md rule R11 (e)). -/
def State.setReport (s : State) (r : Report) : State := { s with report := r }

-- The byte map `M`.

/-- DESIGN CHOICE, unsafe (log entry 4): what an address that the list does not name reads as. The spec's `MEM_INIT` is an
argument, with 0 recommended "where the linker placed nothing" (00_scope.md section 4); a list over this default can be any
total function from the 32-bit addresses to bytes. -/
def unlistedByte : Byte := 0#8

/-- The byte at address number `k`. -/
def lookupByte : Memory → Nat → Byte
  | [], _ => unlistedByte
  | (j, b) :: m, k => if j = k then b else lookupByte m k

/-- `m` with the byte at address number `k` replaced, in canonical form. -/
def insertByte : Memory → Nat → Byte → Memory
  | [], k, v => if v = unlistedByte then [] else [(k, v)]
  | (j, b) :: m, k, v =>
    if k < j then
      if v = unlistedByte then (j, b) :: m else (k, v) :: (j, b) :: m
    else if k = j then
      if v = unlistedByte then m else (k, v) :: m
    else (j, b) :: insertByte m k v

/-- `M[a]` (10_state.md rule R27). -/
def readByte (m : Memory) (a : Word) : Byte := lookupByte m a.toNat

/-- `M[a] <- v` (10_state.md rule R27). -/
def writeByte (m : Memory) (a : Word) (v : Byte) : Memory := insertByte m a.toNat v

/-- The canonical form: addresses strictly rising and within the 32-bit space, no entry equal to what an unlisted address
reads as. -/
abbrev Memory.wf (m : Memory) : Prop :=
  m.Pairwise (fun c d => c.1 < d.1) ∧ (∀ c ∈ m, c.2 ≠ unlistedByte) ∧ ∀ c ∈ m, c.1 < 2 ^ 32

-- Accesses of 1, 2 and 4 bytes.

/-- The width of an access (20_memory.md rule R39). -/
inductive Width where
  | byte
  | half
  | word
  deriving DecidableEq, Repr

/-- The width in bytes: 1, 2, 4. -/
def widthBytes : Width → Nat
  | .byte => 1
  | .half => 2
  | .word => 4

/-- The width in bits. -/
abbrev Width.bits : Width → Nat
  | .byte => 8
  | .half => 16
  | .word => 32

/-- `{ M[a+n-1], ..., M[a+1], M[a] }` (20_memory.md rules R36, R48): the least significant byte at `a`. -/
def readBytes (m : Memory) (a : Word) (n : Width) : BitVec n.bits :=
  match n with
  | .byte => readByte m a
  | .half => readByte m (a + 1#32) ++ readByte m a
  | .word => readByte m (a + 3#32) ++ readByte m (a + 2#32) ++ readByte m (a + 1#32) ++ readByte m a

/-- `for i in 0 .. n-1: M[a+i] <- v[8i+7 : 8i]` (20_memory.md rule R49). -/
def writeBytes (m : Memory) (a : Word) (n : Width) (v : BitVec n.bits) : Memory :=
  match n with
  | .byte => writeByte m a v
  | .half => writeByte (writeByte m a (v.extractLsb' 0 8)) (a + 1#32) (v.extractLsb' 8 8)
  | .word =>
    writeByte (writeByte (writeByte (writeByte m a (v.extractLsb' 0 8)) (a + 1#32) (v.extractLsb' 8 8))
      (a + 2#32) (v.extractLsb' 16 8)) (a + 3#32) (v.extractLsb' 24 8)

-- Regions and checks.

/-- The six regions of 20_memory.md rule R40. -/
inductive Region where
  | text
  | data
  | heap
  | stack
  | reserved
  | unmapped
  deriving DecidableEq, Repr

/-- `base <= a <= limit`, unsigned (20_memory.md rule R40). -/
def inRange (r : AddrRange) (a : Word) : Bool := decide (r.base ≤ a) && decide (a ≤ r.limit)

/-- `Region(a)` (20_memory.md rule R40). -/
def regionOf (p : Params) (a : Word) : Region :=
  if inRange p.segments.text a then .text
  else if inRange p.segments.data a then .data
  else if inRange p.segments.heap a then .heap
  else if inRange p.segments.stack a then .stack
  else if p.reserved.any (fun r => inRange r a) then .reserved
  else .unmapped

/-- The load column of the table of 20_memory.md rule R41. -/
def loadAllowed (p : Params) (r : Region) : Bool :=
  match r with
  | .text => decide (p.textPerm ≠ .none)
  | .data => true
  | .heap => true
  | .stack => true
  | .reserved => true
  | .unmapped => false

/-- The store column of the table of 20_memory.md rule R41. -/
def storeAllowed (p : Params) (r : Region) : Bool :=
  match r with
  | .text => decide (p.textPerm = .loadStore)
  | .data => true
  | .heap => true
  | .stack => true
  | .reserved => false
  | .unmapped => false

/-- `a mod n = 0` (20_memory.md rule R43). -/
def isAligned (a : Word) (n : Width) : Bool := a.toNat % widthBytes n = 0

/-- `CheckLoad(a, n)` (20_memory.md rule R45): the region, then the alignment; the warnings of an admitted load. The fault
carries the `pc` of the instruction as well (60_exceptions.md rule R184). -/
def checkLoad (s : State) (a : Word) (n : Width) : Except Fault (List Warning) :=
  if loadAllowed s.params (regionOf s.params a) = false then .error (.loadAccessFault s.pc a)
  else if isAligned a n = false then .error (.loadMisaligned s.pc a)
  else if regionOf s.params a = .reserved then .ok [.reservedRead a]
  else .ok []

/-- `CheckStore(a, n)` (20_memory.md rule R46): the region, then the alignment. -/
def checkStore (s : State) (a : Word) (n : Width) : Except Fault Unit :=
  if storeAllowed s.params (regionOf s.params a) = false then .error (.storeAccessFault s.pc a)
  else if isAligned a n = false then .error (.storeMisaligned s.pc a)
  else .ok ()

/-- `MemRead(a, n)` (20_memory.md rule R48): the value and the warnings, or the fault. -/
def memRead (s : State) (a : Word) (n : Width) : Except Fault (BitVec n.bits × List Warning) :=
  match checkLoad s a n with
  | .error e => .error e
  | .ok ws => .ok (readBytes s.mem a n, ws)

/-- `MemWrite(a, n, v)` (20_memory.md rule R49): the state with the bytes written, or the fault. -/
def memWrite (s : State) (a : Word) (n : Width) (v : BitVec n.bits) : Except Fault State :=
  match checkStore s a n with
  | .error e => .error e
  | .ok () => .ok { s with mem := writeBytes s.mem a n v }

-- How an instruction ends.

/-- `pc <- target; Retire` with the warnings `ws` (00_scope.md section 6, 60_exceptions.md rule R180). -/
def retireAt (target : Word) (ws : List Warning) (s : State) : Host.Outcome State Fault Refusal :=
  .next ((s.setPc target).setReport (.retired ws))

/-- `pc <- pc + 4; Retire`, the common end of an instruction that is no jump (10_state.md rule R21). -/
def retireNext (ws : List Warning) (s : State) : Host.Outcome State Fault Refusal :=
  retireAt (s.pc + 4#32) ws s

/-- `raise E(info)` for a fault (60_exceptions.md rule R183): the step ends with the fault and the state is the one before
it. This is all there is of taking an exception: "no state is saved, no mode changes, no mask changes, control goes nowhere"
(rule R195), and there is no return from one (rule R197). -/
def raise (e : Fault) : Host.Outcome State Fault Refusal := .fault e

/-- `raise` for the two outcomes that are no faults, `EnvCall` and `Break` (60_exceptions.md rules R180, R191, R192): the
outcome goes out on the port and the state tuple, `pc` included, is the one before the step. DESIGN CHOICE, safe (log entry
7): the step answers a next state, since the spec says these are no faults. -/
def reportToHost (r : Report) (s : State) : Host.Outcome State Fault Refusal := .next (s.setReport r)

end Sys2Proof.Machine
end

