-- ==== Sys2Proof/Machine/Operands.lean ====
section
/-! DEFINITION. Machine/Operands.lean: the operand forms: extended immediates (30_encoding.md rule R81), shift amounts
(rules R64, R91), effective addresses (rules R120, R140), and the shifts of 00_scope.md section 6. -/

namespace Sys2Proof.Machine

/-- `imm_I` and `imm_S`: 12 bits sign-extended to 32 (30_encoding.md rules R63, R65). -/
def signExtend12 (imm : BitVec 12) : Word := imm.signExtend 32

/-- `imm_B`: 13 bits sign-extended to 32 (30_encoding.md rule R66). -/
def signExtend13 (off : BitVec 13) : Word := off.signExtend 32

/-- `imm_J`: 21 bits sign-extended to 32 (30_encoding.md rule R68). -/
def signExtend21 (off : BitVec 21) : Word := off.signExtend 32

/-- `imm_U = {inst[31:12], 0x000}` (30_encoding.md rule R67). -/
def upperImm (imm : BitVec 20) : Word := imm ++ 0#12

/-- `shamt`: the low 5 bits of the 12-bit immediate, unsigned (30_encoding.md rule R64, 41_i_type.md rule R112). -/
def shamtOfImm (imm : BitVec 12) : BitVec 5 := imm.extractLsb' 0 5

/-- The amount of a register-specified shift: `b[4:0]` (40_r_type.md rule R91). -/
def shamtOfReg (b : Word) : BitVec 5 := b.extractLsb' 0 5

/-- `a << n` (00_scope.md section 6). -/
def shiftLeft (a : Word) (n : BitVec 5) : Word := a <<< n.toNat

/-- `a >>u n` (00_scope.md section 6). -/
def shiftRightLogical (a : Word) (n : BitVec 5) : Word := a >>> n.toNat

/-- `a >>s n` (00_scope.md section 6): copies of `a[31]` enter. -/
def shiftRightArith (a : Word) (n : BitVec 5) : Word := a.sshiftRight n.toNat

/-- The one addressing mode, base plus displacement, modulo 2^32 (41_i_type.md rule R120, 42_s_type.md rule R140). -/
def effectiveAddr (s : State) (rs1 : XReg) (imm : BitVec 12) : Word := s.readX rs1 + signExtend12 imm

/-- The low `8n` bits of a store's data register: the store "truncates to width" (42_s_type.md rule R140). -/
def truncateTo (n : Width) (v : Word) : BitVec n.bits := v.setWidth n.bits

end Sys2Proof.Machine
end

