-- ==== Sys2Proof/Machine/Flags.lean ====
section
/-! DEFINITION. Machine/Flags.lean: the block has no status flags and no condition codes, and no instruction leaves a carry,
overflow, zero or sign indication anywhere (10_state.md rule R26). What stands in their place is here: the comparisons that
a branch and a set-if-less instruction make themselves (00_scope.md section 6). -/

namespace Sys2Proof.Machine

/-- `a == b`: all 32 bits. -/
def eqWord (a b : Word) : Bool := a == b

/-- `a != b`. -/
def neWord (a b : Word) : Bool := !eqWord a b

/-- `a <s b`: `signed(a) < signed(b)`. -/
def ltSigned (a b : Word) : Bool := a.slt b

/-- `a >=s b`, the negation of `a <s b` (43_b_type.md rule R149). -/
def geSigned (a b : Word) : Bool := !ltSigned a b

/-- `a <u b`: `unsigned(a) < unsigned(b)`. -/
def ltUnsigned (a b : Word) : Bool := a.ult b

/-- `a >=u b`, the negation of `a <u b` (43_b_type.md rule R151). -/
def geUnsigned (a b : Word) : Bool := !ltUnsigned a b

/-- "a 32-bit 0 or 1": what a set-if-less instruction writes (40_r_type.md rule R95). -/
def wordOfBool (b : Bool) : Word := if b then 1#32 else 0#32

end Sys2Proof.Machine
end

