-- ==== Sys2Proof/Machine/Control.lean ====
section
/-! DEFINITION. Machine/Control.lean: the six branches (43_b_type.md), `jal` and the two U-type instructions
(44_u_j_type.md) and `jalr` (41_i_type.md section 4). A target is written unchecked: a bad one shows as `FetchFault` at the
next fetch (10_state.md rule R22). -/

namespace Sys2Proof.Machine

/-- The common shape of rule R145: the offset is relative to the branch itself. -/
def branchIf (comparison : Word → Word → Bool) (rs1 rs2 : XReg) (off : BitVec 13) (s : State) :
    Host.Outcome State Fault Refusal :=
  if comparison (s.readX rs1) (s.readX rs2) then retireAt (s.pc + signExtend13 off) [] s else retireNext [] s

/-- Rule R146. -/
def execBeq (rs1 rs2 : XReg) (off : BitVec 13) (s : State) : Host.Outcome State Fault Refusal :=
  branchIf eqWord rs1 rs2 off s

/-- Rule R147. -/
def execBne (rs1 rs2 : XReg) (off : BitVec 13) (s : State) : Host.Outcome State Fault Refusal :=
  branchIf neWord rs1 rs2 off s

/-- Rule R148. -/
def execBlt (rs1 rs2 : XReg) (off : BitVec 13) (s : State) : Host.Outcome State Fault Refusal :=
  branchIf ltSigned rs1 rs2 off s

/-- Rule R149; taken on (1, 0xFFFFFFFF), 90_conflicts.md C2. -/
def execBge (rs1 rs2 : XReg) (off : BitVec 13) (s : State) : Host.Outcome State Fault Refusal :=
  branchIf geSigned rs1 rs2 off s

/-- Rule R150. -/
def execBltu (rs1 rs2 : XReg) (off : BitVec 13) (s : State) : Host.Outcome State Fault Refusal :=
  branchIf ltUnsigned rs1 rs2 off s

/-- Rule R151. -/
def execBgeu (rs1 rs2 : XReg) (off : BitVec 13) (s : State) : Host.Outcome State Fault Refusal :=
  branchIf geUnsigned rs1 rs2 off s

/-- Rule R158. -/
def execLui (rd : XReg) (imm : BitVec 20) (s : State) : Host.Outcome State Fault Refusal :=
  retireNext [] (s.writeX rd (upperImm imm))

/-- Rule R159: `pc` is the address of this `auipc`. -/
def execAuipc (rd : XReg) (imm : BitVec 20) (s : State) : Host.Outcome State Fault Refusal :=
  retireNext [] (s.writeX rd (s.pc + upperImm imm))

/-- Rule R160: the link, then the target relative to this `jal`. -/
def execJal (rd : XReg) (off : BitVec 21) (s : State) : Host.Outcome State Fault Refusal :=
  retireAt (s.pc + signExtend21 off) [] (s.writeX rd (s.pc + 4#32))

/-- Rule R135: the target comes from the old `x[rs1]`, bit 0 cleared; then the link is written. -/
def execJalr (rd rs1 : XReg) (imm : BitVec 12) (s : State) : Host.Outcome State Fault Refusal :=
  retireAt ((s.readX rs1 + signExtend12 imm) &&& 0xFFFFFFFE#32) [] (s.writeX rd (s.pc + 4#32))

end Sys2Proof.Machine
end

