-- ==== Sys2Proof/Machine/FpMove.lean ====
section
/-! DEFINITION. Machine/FpMove.lean: the two bit-pattern moves (45_fp_move.md). No rule reads a float register as a number
(rule R168). -/

namespace Sys2Proof.Machine

/-- Rule R166: all 32 bits, unchanged. -/
def execFmvXW (rd : XReg) (fs1 : FReg) (s : State) : Host.Outcome State Fault Refusal :=
  retireNext [] (s.writeX rd (s.readF fs1))

/-- Rule R167: all 32 bits, unchanged; `f[0]` is writable. -/
def execFmvWX (fd : FReg) (rs1 : XReg) (s : State) : Host.Outcome State Fault Refusal :=
  retireNext [] (s.writeF fd (s.readX rs1))

end Sys2Proof.Machine
end

