-- ==== Sys2Proof/Machine/IType.lean ====
section
/-! DEFINITION. Machine/IType.lean: the register-immediate and shift-immediate instructions (41_i_type.md sections 1
and 2). -/

namespace Sys2Proof.Machine

/-- The common shape of rule R105: `compute(x[rs1], sext_32(imm))`. -/
def computeRI (op : Word → Word → Word) (rd rs1 : XReg) (imm : BitVec 12) (s : State) :
    Host.Outcome State Fault Refusal :=
  retireNext [] (s.writeX rd (op (s.readX rs1) (signExtend12 imm)))

/-- The common shape of rule R112: `shift(x[rs1], shamt)`. -/
def computeShift (op : Word → BitVec 5 → Word) (rd rs1 : XReg) (imm : BitVec 12) (s : State) :
    Host.Outcome State Fault Refusal :=
  retireNext [] (s.writeX rd (op (s.readX rs1) (shamtOfImm imm)))

/-- Rule R106. -/
def execAddi (rd rs1 : XReg) (imm : BitVec 12) (s : State) : Host.Outcome State Fault Refusal :=
  computeRI (fun a b => a + b) rd rs1 imm s

/-- Rule R107. -/
def execSlti (rd rs1 : XReg) (imm : BitVec 12) (s : State) : Host.Outcome State Fault Refusal :=
  computeRI (fun a b => wordOfBool (ltSigned a b)) rd rs1 imm s

/-- Rule R108: the immediate is sign-extended and then compared unsigned. -/
def execSltiu (rd rs1 : XReg) (imm : BitVec 12) (s : State) : Host.Outcome State Fault Refusal :=
  computeRI (fun a b => wordOfBool (ltUnsigned a b)) rd rs1 imm s

/-- Rule R109. -/
def execXori (rd rs1 : XReg) (imm : BitVec 12) (s : State) : Host.Outcome State Fault Refusal :=
  computeRI (fun a b => a ^^^ b) rd rs1 imm s

/-- Rule R110. -/
def execOri (rd rs1 : XReg) (imm : BitVec 12) (s : State) : Host.Outcome State Fault Refusal :=
  computeRI (fun a b => a ||| b) rd rs1 imm s

/-- Rule R111. -/
def execAndi (rd rs1 : XReg) (imm : BitVec 12) (s : State) : Host.Outcome State Fault Refusal :=
  computeRI (fun a b => a &&& b) rd rs1 imm s

/-- Rule R113. -/
def execSlli (rd rs1 : XReg) (imm : BitVec 12) (s : State) : Host.Outcome State Fault Refusal :=
  computeShift shiftLeft rd rs1 imm s

/-- Rule R114. -/
def execSrli (rd rs1 : XReg) (imm : BitVec 12) (s : State) : Host.Outcome State Fault Refusal :=
  computeShift shiftRightLogical rd rs1 imm s

/-- Rule R115. -/
def execSrai (rd rs1 : XReg) (imm : BitVec 12) (s : State) : Host.Outcome State Fault Refusal :=
  computeShift shiftRightArith rd rs1 imm s

end Sys2Proof.Machine
end

