-- ==== Sys2Proof/Machine/LoadStore.lean ====
section
/-! DEFINITION. Machine/LoadStore.lean: the five loads (41_i_type.md section 3) and the three stores (42_s_type.md). -/

namespace Sys2Proof.Machine

/-- The common shape of rule R120. With `rd = 0` the access, its checks and its warning still happen. -/
def loadInto (n : Width) (ext : BitVec n.bits → Word) (rd rs1 : XReg) (imm : BitVec 12) (s : State) :
    Host.Outcome State Fault Refusal :=
  match memRead s (effectiveAddr s rs1 imm) n with
  | .error e => raise e
  | .ok (v, ws) => retireNext ws (s.writeX rd (ext v))

/-- The common shape of 42_s_type.md rule R140. -/
def storeFrom (n : Width) (rs1 rs2 : XReg) (imm : BitVec 12) (s : State) : Host.Outcome State Fault Refusal :=
  match memWrite s (effectiveAddr s rs1 imm) n (truncateTo n (s.readX rs2)) with
  | .error e => raise e
  | .ok t => retireNext [] t

/-- Rule R121: one byte, sign-extended. -/
def execLb (rd rs1 : XReg) (imm : BitVec 12) (s : State) : Host.Outcome State Fault Refusal :=
  loadInto .byte (fun v => v.signExtend 32) rd rs1 imm s

/-- Rule R122: a half-word, sign-extended. -/
def execLh (rd rs1 : XReg) (imm : BitVec 12) (s : State) : Host.Outcome State Fault Refusal :=
  loadInto .half (fun v => v.signExtend 32) rd rs1 imm s

/-- Rule R123: a word. -/
def execLw (rd rs1 : XReg) (imm : BitVec 12) (s : State) : Host.Outcome State Fault Refusal :=
  loadInto .word (fun v => v) rd rs1 imm s

/-- Rule R124: one byte, zero-extended. -/
def execLbu (rd rs1 : XReg) (imm : BitVec 12) (s : State) : Host.Outcome State Fault Refusal :=
  loadInto .byte (fun v => v.zeroExtend 32) rd rs1 imm s

/-- Rule R125: a half-word, zero-extended. -/
def execLhu (rd rs1 : XReg) (imm : BitVec 12) (s : State) : Host.Outcome State Fault Refusal :=
  loadInto .half (fun v => v.zeroExtend 32) rd rs1 imm s

/-- 42_s_type.md rule R141. -/
def execSb (rs1 rs2 : XReg) (imm : BitVec 12) (s : State) : Host.Outcome State Fault Refusal :=
  storeFrom .byte rs1 rs2 imm s

/-- 42_s_type.md rule R142. -/
def execSh (rs1 rs2 : XReg) (imm : BitVec 12) (s : State) : Host.Outcome State Fault Refusal :=
  storeFrom .half rs1 rs2 imm s

/-- 42_s_type.md rule R143. -/
def execSw (rs1 rs2 : XReg) (imm : BitVec 12) (s : State) : Host.Outcome State Fault Refusal :=
  storeFrom .word rs1 rs2 imm s

end Sys2Proof.Machine
end

