-- ==== Sys2Proof/Machine/RType.lean ====
section
/-! DEFINITION. Machine/RType.lean: the ten integer register-register instructions (40_r_type.md). -/

namespace Sys2Proof.Machine

/-- The common shape of rule R90: both operands are read, then `x[rd]` is written, then `pc` advances. -/
def computeRR (op : Word → Word → Word) (rd rs1 rs2 : XReg) (s : State) : Host.Outcome State Fault Refusal :=
  retireNext [] (s.writeX rd (op (s.readX rs1) (s.readX rs2)))

/-- Rule R92. -/
def execAdd (rd rs1 rs2 : XReg) (s : State) : Host.Outcome State Fault Refusal :=
  computeRR (fun a b => a + b) rd rs1 rs2 s

/-- Rule R93. -/
def execSub (rd rs1 rs2 : XReg) (s : State) : Host.Outcome State Fault Refusal :=
  computeRR (fun a b => a - b) rd rs1 rs2 s

/-- Rule R94: bits 31:5 of `x[rs2]` are ignored. -/
def execSll (rd rs1 rs2 : XReg) (s : State) : Host.Outcome State Fault Refusal :=
  computeRR (fun a b => shiftLeft a (shamtOfReg b)) rd rs1 rs2 s

/-- Rule R95. -/
def execSlt (rd rs1 rs2 : XReg) (s : State) : Host.Outcome State Fault Refusal :=
  computeRR (fun a b => wordOfBool (ltSigned a b)) rd rs1 rs2 s

/-- Rule R96. -/
def execSltu (rd rs1 rs2 : XReg) (s : State) : Host.Outcome State Fault Refusal :=
  computeRR (fun a b => wordOfBool (ltUnsigned a b)) rd rs1 rs2 s

/-- Rule R97. -/
def execXor (rd rs1 rs2 : XReg) (s : State) : Host.Outcome State Fault Refusal :=
  computeRR (fun a b => a ^^^ b) rd rs1 rs2 s

/-- Rule R98. -/
def execSrl (rd rs1 rs2 : XReg) (s : State) : Host.Outcome State Fault Refusal :=
  computeRR (fun a b => shiftRightLogical a (shamtOfReg b)) rd rs1 rs2 s

/-- Rule R99. -/
def execSra (rd rs1 rs2 : XReg) (s : State) : Host.Outcome State Fault Refusal :=
  computeRR (fun a b => shiftRightArith a (shamtOfReg b)) rd rs1 rs2 s

/-- Rule R100. -/
def execOr (rd rs1 rs2 : XReg) (s : State) : Host.Outcome State Fault Refusal :=
  computeRR (fun a b => a ||| b) rd rs1 rs2 s

/-- Rule R101. -/
def execAnd (rd rs1 rs2 : XReg) (s : State) : Host.Outcome State Fault Refusal :=
  computeRR (fun a b => a &&& b) rd rs1 rs2 s

end Sys2Proof.Machine
end

