-- ==== Sys2Proof/Machine/System.lean ====
section
/-! DEFINITION. Machine/System.lean: `fence`, `ecall`, `ebreak` (46_system.md). -/

namespace Sys2Proof.Machine

/-- Rule R171: only `pc` advances; the three fields are ignored, and there is nothing to order (20_memory.md rules R53,
R54). -/
def execFence (_imm : BitVec 12) (_rs1 _rd : XReg) (s : State) : Host.Outcome State Fault Refusal :=
  retireNext [] s

/-- Rule R172: `raise EnvCall(pc)`, with no register, memory or pc change. What the host answers is in
Machine/Debugger.lean. -/
def execEcall (s : State) : Host.Outcome State Fault Refusal := reportToHost (.envCall s.pc) s

/-- Rule R173: `raise Break(pc)`, with no register, memory or pc change. -/
def execEbreak (s : State) : Host.Outcome State Fault Refusal := reportToHost (.brk s.pc) s

end Sys2Proof.Machine
end

