-- ==== Sys2Proof/Syntax.lean ====
section
/-! DEFINITION. Syntax.lean: the instructions, one constructor for each of the 42 rows of spec/opcode_table.json
(30_encoding.md rule R70). A constructor holds the operand FIELDS of the word, each at the width its format gives it; what
an instruction does is in Machine/.

The bits that the decoder ignores stay in the term (the upper immediate bits of the three shift-immediates, rule R82; the
three ignored fields of `fence`, rule R84), so that a decoded word can be written back bit for bit (log entry 12). -/

namespace Sys2Proof

/-- The instructions of `RV32I + fmv.x.w + fmv.w.x` (00_scope.md rule R2). -/
inductive Instr where
  /-- `add rd, rs1, rs2` (rule R92) -/
  | add (rd rs1 rs2 : XReg)
  /-- `sub rd, rs1, rs2` (rule R93) -/
  | sub (rd rs1 rs2 : XReg)
  /-- `sll rd, rs1, rs2` (rule R94) -/
  | sll (rd rs1 rs2 : XReg)
  /-- `slt rd, rs1, rs2` (rule R95) -/
  | slt (rd rs1 rs2 : XReg)
  /-- `sltu rd, rs1, rs2` (rule R96) -/
  | sltu (rd rs1 rs2 : XReg)
  /-- `xor rd, rs1, rs2` (rule R97) -/
  | xor (rd rs1 rs2 : XReg)
  /-- `srl rd, rs1, rs2` (rule R98) -/
  | srl (rd rs1 rs2 : XReg)
  /-- `sra rd, rs1, rs2` (rule R99) -/
  | sra (rd rs1 rs2 : XReg)
  /-- `or rd, rs1, rs2` (rule R100) -/
  | or (rd rs1 rs2 : XReg)
  /-- `and rd, rs1, rs2` (rule R101) -/
  | and (rd rs1 rs2 : XReg)
  /-- `addi rd, rs1, imm` (rule R106) -/
  | addi (rd rs1 : XReg) (imm : BitVec 12)
  /-- `slti rd, rs1, imm` (rule R107) -/
  | slti (rd rs1 : XReg) (imm : BitVec 12)
  /-- `sltiu rd, rs1, imm` (rule R108) -/
  | sltiu (rd rs1 : XReg) (imm : BitVec 12)
  /-- `xori rd, rs1, imm` (rule R109) -/
  | xori (rd rs1 : XReg) (imm : BitVec 12)
  /-- `ori rd, rs1, imm` (rule R110) -/
  | ori (rd rs1 : XReg) (imm : BitVec 12)
  /-- `andi rd, rs1, imm` (rule R111) -/
  | andi (rd rs1 : XReg) (imm : BitVec 12)
  /-- `slli rd, rs1, imm`: the whole 12-bit immediate; the shift amount is its low 5 bits (rules R64, R113) -/
  | slli (rd rs1 : XReg) (imm : BitVec 12)
  /-- `srli rd, rs1, imm`: the whole 12-bit immediate, whose bit 10 (`inst[30]`) is 0 (rules R82, R114) -/
  | srli (rd rs1 : XReg) (imm : BitVec 12)
  /-- `srai rd, rs1, imm`: the whole 12-bit immediate, whose bit 10 (`inst[30]`) is 1 (rules R82, R115) -/
  | srai (rd rs1 : XReg) (imm : BitVec 12)
  /-- `lb rd, imm(rs1)` (rule R121) -/
  | lb (rd rs1 : XReg) (imm : BitVec 12)
  /-- `lh rd, imm(rs1)` (rule R122) -/
  | lh (rd rs1 : XReg) (imm : BitVec 12)
  /-- `lw rd, imm(rs1)` (rule R123) -/
  | lw (rd rs1 : XReg) (imm : BitVec 12)
  /-- `lbu rd, imm(rs1)` (rule R124) -/
  | lbu (rd rs1 : XReg) (imm : BitVec 12)
  /-- `lhu rd, imm(rs1)` (rule R125) -/
  | lhu (rd rs1 : XReg) (imm : BitVec 12)
  /-- `jalr rd, imm(rs1)` (rule R135) -/
  | jalr (rd rs1 : XReg) (imm : BitVec 12)
  /-- `sb rs2, imm(rs1)` (rule R141) -/
  | sb (rs1 rs2 : XReg) (imm : BitVec 12)
  /-- `sh rs2, imm(rs1)` (rule R142) -/
  | sh (rs1 rs2 : XReg) (imm : BitVec 12)
  /-- `sw rs2, imm(rs1)` (rule R143) -/
  | sw (rs1 rs2 : XReg) (imm : BitVec 12)
  /-- `beq rs1, rs2, offset`: the 13-bit offset, always even (rules R66, R146) -/
  | beq (rs1 rs2 : XReg) (off : BitVec 13)
  /-- `bne rs1, rs2, offset` (rule R147) -/
  | bne (rs1 rs2 : XReg) (off : BitVec 13)
  /-- `blt rs1, rs2, offset` (rule R148) -/
  | blt (rs1 rs2 : XReg) (off : BitVec 13)
  /-- `bge rs1, rs2, offset` (rule R149) -/
  | bge (rs1 rs2 : XReg) (off : BitVec 13)
  /-- `bltu rs1, rs2, offset` (rule R150) -/
  | bltu (rs1 rs2 : XReg) (off : BitVec 13)
  /-- `bgeu rs1, rs2, offset` (rule R151) -/
  | bgeu (rs1 rs2 : XReg) (off : BitVec 13)
  /-- `lui rd, imm20` (rule R158) -/
  | lui (rd : XReg) (imm : BitVec 20)
  /-- `auipc rd, imm20` (rule R159) -/
  | auipc (rd : XReg) (imm : BitVec 20)
  /-- `jal rd, offset`: the 21-bit offset, always even (rules R68, R160) -/
  | jal (rd : XReg) (off : BitVec 21)
  /-- `fmv.x.w rd, fs1`: `rd` indexes the integer file, `fs1` the float file (rule R166) -/
  | fmvXW (rd : XReg) (fs1 : FReg)
  /-- `fmv.w.x fd, rs1`: `fd` indexes the float file, `rs1` the integer file (rule R167) -/
  | fmvWX (fd : FReg) (rs1 : XReg)
  /-- `fence`: its three fields are ignored (rules R84, R171) -/
  | fence (imm : BitVec 12) (rs1 rd : XReg)
  /-- `ecall` (rule R172) -/
  | ecall
  /-- `ebreak` (rule R173) -/
  | ebreak
  deriving DecidableEq, Repr

end Sys2Proof
end

