-- ==== Sys2Proof/Decode.lean ====
section
/-! DEFINITION. Decode.lean: the fields of an instruction word (30_encoding.md rules R61 to R68, R81), the decoder (rules
R69 to R72, R82 to R85), the opcode table as data (rule R70), and the encoder written from the same format tables. Every
bit position and opcode value is the spec's, which marks them [from general knowledge, not in source] (rule R61, D3). -/

namespace Sys2Proof

-- The fields of the word, rule R61.

/-- `inst[6:0]` -/
def opcodeOf (w : Word) : BitVec 7 := w.extractLsb' 0 7
/-- `inst[11:7]` -/
def rdOf (w : Word) : BitVec 5 := w.extractLsb' 7 5
/-- `inst[14:12]` -/
def funct3Of (w : Word) : BitVec 3 := w.extractLsb' 12 3
/-- `inst[19:15]` -/
def rs1Of (w : Word) : BitVec 5 := w.extractLsb' 15 5
/-- `inst[24:20]` -/
def rs2Of (w : Word) : BitVec 5 := w.extractLsb' 20 5
/-- `inst[31:25]` -/
def funct7Of (w : Word) : BitVec 7 := w.extractLsb' 25 7

-- The immediates as the formats assemble them, before extension (rules R63 to R68, R81).

/-- `imm_I` before extension: `inst[31:20]` (rule R63). -/
def immIOf (w : Word) : BitVec 12 := w.extractLsb' 20 12
/-- `imm_S` before extension: `inst[31:25], inst[11:7]` (rule R65). -/
def immSOf (w : Word) : BitVec 12 := w.extractLsb' 25 7 ++ w.extractLsb' 7 5
/-- `imm_B` before extension: `inst[31], inst[7], inst[30:25], inst[11:8], 0` (rule R66). -/
def immBOf (w : Word) : BitVec 13 :=
  w.extractLsb' 31 1 ++ w.extractLsb' 7 1 ++ w.extractLsb' 25 6 ++ w.extractLsb' 8 4 ++ 0#1
/-- The 20 field bits of `imm_U`: `inst[31:12]` (rule R67). -/
def immUOf (w : Word) : BitVec 20 := w.extractLsb' 12 20
/-- `imm_J` before extension: `inst[31], inst[19:12], inst[20], inst[30:21], 0` (rule R68). -/
def immJOf (w : Word) : BitVec 21 :=
  w.extractLsb' 31 1 ++ w.extractLsb' 12 8 ++ w.extractLsb' 20 1 ++ w.extractLsb' 21 10 ++ 0#1

/-- Why a word is `illegal`; the outcome is the same for all three (rule R86). -/
inductive Illegal where
  /-- `inst[1:0]` is not `11`: the standard's space of 16-bit forms (rule R85) -/
  | notWordForm
  /-- a major opcode that no instruction of the set uses (rule R71) -/
  | unusedOpcode
  /-- a used major opcode with a function value, or a fixed field, that no row has (rule R72) -/
  | unusedFunction
  deriving DecidableEq, Repr

/-- OP, 0110011: funct3 and the exact funct7 (rule R70 rows 1 to 10; D26). -/
def decodeOp (w : Word) : Except Illegal Instr :=
  match funct7Of w, funct3Of w with
  | 0b0000000#7, 0b000#3 => .ok (.add (rdOf w) (rs1Of w) (rs2Of w))
  | 0b0100000#7, 0b000#3 => .ok (.sub (rdOf w) (rs1Of w) (rs2Of w))
  | 0b0000000#7, 0b001#3 => .ok (.sll (rdOf w) (rs1Of w) (rs2Of w))
  | 0b0000000#7, 0b010#3 => .ok (.slt (rdOf w) (rs1Of w) (rs2Of w))
  | 0b0000000#7, 0b011#3 => .ok (.sltu (rdOf w) (rs1Of w) (rs2Of w))
  | 0b0000000#7, 0b100#3 => .ok (.xor (rdOf w) (rs1Of w) (rs2Of w))
  | 0b0000000#7, 0b101#3 => .ok (.srl (rdOf w) (rs1Of w) (rs2Of w))
  | 0b0100000#7, 0b101#3 => .ok (.sra (rdOf w) (rs1Of w) (rs2Of w))
  | 0b0000000#7, 0b110#3 => .ok (.or (rdOf w) (rs1Of w) (rs2Of w))
  | 0b0000000#7, 0b111#3 => .ok (.and (rdOf w) (rs1Of w) (rs2Of w))
  | _, _ => .error .unusedFunction

/-- OP-IMM, 0010011: all eight funct3 values are used; funct3 101 looks at `inst[30]` alone (rule R70 rows 11 to 19, rule
R82). -/
def decodeOpImm (w : Word) : Except Illegal Instr :=
  match funct3Of w with
  | 0b000#3 => .ok (.addi (rdOf w) (rs1Of w) (immIOf w))
  | 0b001#3 => .ok (.slli (rdOf w) (rs1Of w) (immIOf w))
  | 0b010#3 => .ok (.slti (rdOf w) (rs1Of w) (immIOf w))
  | 0b011#3 => .ok (.sltiu (rdOf w) (rs1Of w) (immIOf w))
  | 0b100#3 => .ok (.xori (rdOf w) (rs1Of w) (immIOf w))
  | 0b101#3 =>
    if w.getLsbD 30 then .ok (.srai (rdOf w) (rs1Of w) (immIOf w))
    else .ok (.srli (rdOf w) (rs1Of w) (immIOf w))
  | 0b110#3 => .ok (.ori (rdOf w) (rs1Of w) (immIOf w))
  | 0b111#3 => .ok (.andi (rdOf w) (rs1Of w) (immIOf w))
  | _ => .error .unusedFunction

/-- LOAD, 0000011 (rule R70 rows 20 to 24; funct3 011, 110, 111 are unused, rule R72). -/
def decodeLoad (w : Word) : Except Illegal Instr :=
  match funct3Of w with
  | 0b000#3 => .ok (.lb (rdOf w) (rs1Of w) (immIOf w))
  | 0b001#3 => .ok (.lh (rdOf w) (rs1Of w) (immIOf w))
  | 0b010#3 => .ok (.lw (rdOf w) (rs1Of w) (immIOf w))
  | 0b100#3 => .ok (.lbu (rdOf w) (rs1Of w) (immIOf w))
  | 0b101#3 => .ok (.lhu (rdOf w) (rs1Of w) (immIOf w))
  | _ => .error .unusedFunction

/-- STORE, 0100011 (rule R70 rows 26 to 28; funct3 011 to 111 are unused, rule R72). -/
def decodeStore (w : Word) : Except Illegal Instr :=
  match funct3Of w with
  | 0b000#3 => .ok (.sb (rs1Of w) (rs2Of w) (immSOf w))
  | 0b001#3 => .ok (.sh (rs1Of w) (rs2Of w) (immSOf w))
  | 0b010#3 => .ok (.sw (rs1Of w) (rs2Of w) (immSOf w))
  | _ => .error .unusedFunction

/-- BRANCH, 1100011 (rule R70 rows 29 to 34; funct3 010, 011 are unused, rule R72). -/
def decodeBranch (w : Word) : Except Illegal Instr :=
  match funct3Of w with
  | 0b000#3 => .ok (.beq (rs1Of w) (rs2Of w) (immBOf w))
  | 0b001#3 => .ok (.bne (rs1Of w) (rs2Of w) (immBOf w))
  | 0b100#3 => .ok (.blt (rs1Of w) (rs2Of w) (immBOf w))
  | 0b101#3 => .ok (.bge (rs1Of w) (rs2Of w) (immBOf w))
  | 0b110#3 => .ok (.bltu (rs1Of w) (rs2Of w) (immBOf w))
  | 0b111#3 => .ok (.bgeu (rs1Of w) (rs2Of w) (immBOf w))
  | _ => .error .unusedFunction

/-- OP-FP, 1010011: the two exact patterns, funct5 and fmt together being funct7 (rule R70 rows 38 and 39, rule R72). -/
def decodeOpFp (w : Word) : Except Illegal Instr :=
  match funct7Of w, rs2Of w, funct3Of w with
  | 0b1110000#7, 0b00000#5, 0b000#3 => .ok (.fmvXW (rdOf w) (rs1Of w))
  | 0b1111000#7, 0b00000#5, 0b000#3 => .ok (.fmvWX (rdOf w) (rs1Of w))
  | _, _, _ => .error .unusedFunction

/-- SYSTEM, 1110011: two whole words and nothing else (rule R70 rows 41 and 42, rule R72). -/
def decodeSystem (w : Word) : Except Illegal Instr :=
  if w = 0x00000073#32 then .ok .ecall
  else if w = 0x00100073#32 then .ok .ebreak
  else .error .unusedFunction

/-- `Decode(inst)` (rule R69): the major opcode selects (rule R71), then the function fields. Total. -/
def decode (w : Word) : Except Illegal Instr :=
  match opcodeOf w with
  | 0b0000011#7 => decodeLoad w
  | 0b0001111#7 =>
    match funct3Of w with
    | 0b000#3 => .ok (.fence (immIOf w) (rs1Of w) (rdOf w))
    | _ => .error .unusedFunction
  | 0b0010011#7 => decodeOpImm w
  | 0b0010111#7 => .ok (.auipc (rdOf w) (immUOf w))
  | 0b0100011#7 => decodeStore w
  | 0b0110011#7 => decodeOp w
  | 0b0110111#7 => .ok (.lui (rdOf w) (immUOf w))
  | 0b1010011#7 => decodeOpFp w
  | 0b1100011#7 => decodeBranch w
  | 0b1100111#7 =>
    match funct3Of w with
    | 0b000#3 => .ok (.jalr (rdOf w) (rs1Of w) (immIOf w))
    | _ => .error .unusedFunction
  | 0b1101111#7 => .ok (.jal (rdOf w) (immJOf w))
  | 0b1110011#7 => decodeSystem w
  | op => if op.extractLsb' 0 2 = 0b11#2 then .error .unusedOpcode else .error .notWordForm

/-- The host's question: the instruction this decoder reads from `nbits` bits `w`, every bit above them 0. There is one
length, the 32-bit word (rule R60), which reaches the decoder whole (20_memory.md rule R37). -/
def decodeTableWord (nbits w : Nat) : Option Instr :=
  (decode (BitVec.ofNat 32 (w % 2 ^ nbits))).toOption

/-- One row of the table of rule R70: a word is the row's instruction when `inst & mask = pattern` (rule R69). -/
structure OpcodeRow where
  mnemonic : String
  mask : Word
  /-- the table's column "match" -/
  pattern : Word
  deriving DecidableEq, Repr

/-- The row's test of rule R69. -/
def OpcodeRow.matchesWord (r : OpcodeRow) (w : Word) : Bool := w &&& r.mask = r.pattern

/-- Rows 1 to 10 of rule R70 (OP). -/
def opRows : List OpcodeRow :=
  [ ⟨"add", 0xFE00707F#32, 0x00000033#32⟩,
    ⟨"sub", 0xFE00707F#32, 0x40000033#32⟩,
    ⟨"sll", 0xFE00707F#32, 0x00001033#32⟩,
    ⟨"slt", 0xFE00707F#32, 0x00002033#32⟩,
    ⟨"sltu", 0xFE00707F#32, 0x00003033#32⟩,
    ⟨"xor", 0xFE00707F#32, 0x00004033#32⟩,
    ⟨"srl", 0xFE00707F#32, 0x00005033#32⟩,
    ⟨"sra", 0xFE00707F#32, 0x40005033#32⟩,
    ⟨"or", 0xFE00707F#32, 0x00006033#32⟩,
    ⟨"and", 0xFE00707F#32, 0x00007033#32⟩ ]

/-- Rows 11 to 19 of rule R70 (OP-IMM). -/
def opImmRows : List OpcodeRow :=
  [ ⟨"addi", 0x0000707F#32, 0x00000013#32⟩,
    ⟨"slti", 0x0000707F#32, 0x00002013#32⟩,
    ⟨"sltiu", 0x0000707F#32, 0x00003013#32⟩,
    ⟨"xori", 0x0000707F#32, 0x00004013#32⟩,
    ⟨"ori", 0x0000707F#32, 0x00006013#32⟩,
    ⟨"andi", 0x0000707F#32, 0x00007013#32⟩,
    ⟨"slli", 0x0000707F#32, 0x00001013#32⟩,
    ⟨"srli", 0x4000707F#32, 0x00005013#32⟩,
    ⟨"srai", 0x4000707F#32, 0x40005013#32⟩ ]

/-- Rows 20 to 28 of rule R70 (LOAD, JALR and STORE). -/
def loadStoreRows : List OpcodeRow :=
  [ ⟨"lb", 0x0000707F#32, 0x00000003#32⟩,
    ⟨"lh", 0x0000707F#32, 0x00001003#32⟩,
    ⟨"lw", 0x0000707F#32, 0x00002003#32⟩,
    ⟨"lbu", 0x0000707F#32, 0x00004003#32⟩,
    ⟨"lhu", 0x0000707F#32, 0x00005003#32⟩,
    ⟨"jalr", 0x0000707F#32, 0x00000067#32⟩,
    ⟨"sb", 0x0000707F#32, 0x00000023#32⟩,
    ⟨"sh", 0x0000707F#32, 0x00001023#32⟩,
    ⟨"sw", 0x0000707F#32, 0x00002023#32⟩ ]

/-- Rows 29 to 34 of rule R70 (BRANCH). -/
def branchRows : List OpcodeRow :=
  [ ⟨"beq", 0x0000707F#32, 0x00000063#32⟩,
    ⟨"bne", 0x0000707F#32, 0x00001063#32⟩,
    ⟨"blt", 0x0000707F#32, 0x00004063#32⟩,
    ⟨"bge", 0x0000707F#32, 0x00005063#32⟩,
    ⟨"bltu", 0x0000707F#32, 0x00006063#32⟩,
    ⟨"bgeu", 0x0000707F#32, 0x00007063#32⟩ ]

/-- Rows 35 to 42 of rule R70 (LUI, AUIPC, JAL, OP-FP, MISC-MEM and SYSTEM). -/
def otherRows : List OpcodeRow :=
  [ ⟨"lui", 0x0000007F#32, 0x00000037#32⟩,
    ⟨"auipc", 0x0000007F#32, 0x00000017#32⟩,
    ⟨"jal", 0x0000007F#32, 0x0000006F#32⟩,
    ⟨"fmv.x.w", 0xFFF0707F#32, 0xE0000053#32⟩,
    ⟨"fmv.w.x", 0xFFF0707F#32, 0xF0000053#32⟩,
    ⟨"fence", 0x0000707F#32, 0x0000000F#32⟩,
    ⟨"ecall", 0xFFFFFFFF#32, 0x00000073#32⟩,
    ⟨"ebreak", 0xFFFFFFFF#32, 0x00100073#32⟩ ]

/-- The opcode table of rule R70, in its order. -/
def opcodeTable : List OpcodeRow := opRows ++ opImmRows ++ loadStoreRows ++ branchRows ++ otherRows

/-- The instruction's mnemonic, as rule R70 writes it. -/
def Instr.mnemonic (i : Instr) : String :=
  match i with
  | .add _ _ _ => "add"
  | .sub _ _ _ => "sub"
  | .sll _ _ _ => "sll"
  | .slt _ _ _ => "slt"
  | .sltu _ _ _ => "sltu"
  | .xor _ _ _ => "xor"
  | .srl _ _ _ => "srl"
  | .sra _ _ _ => "sra"
  | .or _ _ _ => "or"
  | .and _ _ _ => "and"
  | .addi _ _ _ => "addi"
  | .slti _ _ _ => "slti"
  | .sltiu _ _ _ => "sltiu"
  | .xori _ _ _ => "xori"
  | .ori _ _ _ => "ori"
  | .andi _ _ _ => "andi"
  | .slli _ _ _ => "slli"
  | .srli _ _ _ => "srli"
  | .srai _ _ _ => "srai"
  | .lb _ _ _ => "lb"
  | .lh _ _ _ => "lh"
  | .lw _ _ _ => "lw"
  | .lbu _ _ _ => "lbu"
  | .lhu _ _ _ => "lhu"
  | .jalr _ _ _ => "jalr"
  | .sb _ _ _ => "sb"
  | .sh _ _ _ => "sh"
  | .sw _ _ _ => "sw"
  | .beq _ _ _ => "beq"
  | .bne _ _ _ => "bne"
  | .blt _ _ _ => "blt"
  | .bge _ _ _ => "bge"
  | .bltu _ _ _ => "bltu"
  | .bgeu _ _ _ => "bgeu"
  | .lui _ _ => "lui"
  | .auipc _ _ => "auipc"
  | .jal _ _ => "jal"
  | .fmvXW _ _ => "fmv.x.w"
  | .fmvWX _ _ => "fmv.w.x"
  | .fence _ _ _ => "fence"
  | .ecall => "ecall"
  | .ebreak => "ebreak"

/-- The mnemonic that `Decode` gives a word; the empty text for an `illegal` one (rule R69: the premise that a linked
statement's mnemonic agrees with its machine code is stated with it). -/
def mnemonicOfWord (w : Word) : String :=
  match decode w with
  | .ok i => i.mnemonic
  | .error _ => ""

-- The formats, most significant field first (rules R62 to R68).

/-- R format (rule R62). -/
def encodeR (funct7 : BitVec 7) (rs2 rs1 : BitVec 5) (funct3 : BitVec 3) (rd : BitVec 5) (op : BitVec 7) : Word :=
  funct7 ++ rs2 ++ rs1 ++ funct3 ++ rd ++ op

/-- I format (rule R63). -/
def encodeI (imm : BitVec 12) (rs1 : BitVec 5) (funct3 : BitVec 3) (rd : BitVec 5) (op : BitVec 7) : Word :=
  imm ++ rs1 ++ funct3 ++ rd ++ op

/-- S format: `imm[11:5]` above `rs2`, `imm[4:0]` in the place of `rd` (rule R65). -/
def encodeS (imm : BitVec 12) (rs2 rs1 : BitVec 5) (funct3 : BitVec 3) (op : BitVec 7) : Word :=
  imm.extractLsb' 5 7 ++ rs2 ++ rs1 ++ funct3 ++ imm.extractLsb' 0 5 ++ op

/-- B format: `imm[12]`, `imm[10:5]`, then the registers, `imm[4:1]`, `imm[11]` (rule R66). Bit 0 is not encoded. -/
def encodeB (off : BitVec 13) (rs2 rs1 : BitVec 5) (funct3 : BitVec 3) (op : BitVec 7) : Word :=
  off.extractLsb' 12 1 ++ off.extractLsb' 5 6 ++ rs2 ++ rs1 ++ funct3 ++ off.extractLsb' 1 4 ++ off.extractLsb' 11 1 ++ op

/-- U format (rule R67). -/
def encodeU (imm : BitVec 20) (rd : BitVec 5) (op : BitVec 7) : Word := imm ++ rd ++ op

/-- J format: `imm[20]`, `imm[10:1]`, `imm[11]`, `imm[19:12]` (rule R68). Bit 0 is not encoded. -/
def encodeJ (off : BitVec 21) (rd : BitVec 5) (op : BitVec 7) : Word :=
  off.extractLsb' 20 1 ++ off.extractLsb' 1 10 ++ off.extractLsb' 11 1 ++ off.extractLsb' 12 8 ++ rd ++ op

/-- The word of a well-formed instruction (rule R70). -/
def encode (i : Instr) : Word :=
  match i with
  | .add rd rs1 rs2 => encodeR 0b0000000#7 rs2 rs1 0b000#3 rd 0b0110011#7
  | .sub rd rs1 rs2 => encodeR 0b0100000#7 rs2 rs1 0b000#3 rd 0b0110011#7
  | .sll rd rs1 rs2 => encodeR 0b0000000#7 rs2 rs1 0b001#3 rd 0b0110011#7
  | .slt rd rs1 rs2 => encodeR 0b0000000#7 rs2 rs1 0b010#3 rd 0b0110011#7
  | .sltu rd rs1 rs2 => encodeR 0b0000000#7 rs2 rs1 0b011#3 rd 0b0110011#7
  | .xor rd rs1 rs2 => encodeR 0b0000000#7 rs2 rs1 0b100#3 rd 0b0110011#7
  | .srl rd rs1 rs2 => encodeR 0b0000000#7 rs2 rs1 0b101#3 rd 0b0110011#7
  | .sra rd rs1 rs2 => encodeR 0b0100000#7 rs2 rs1 0b101#3 rd 0b0110011#7
  | .or rd rs1 rs2 => encodeR 0b0000000#7 rs2 rs1 0b110#3 rd 0b0110011#7
  | .and rd rs1 rs2 => encodeR 0b0000000#7 rs2 rs1 0b111#3 rd 0b0110011#7
  | .addi rd rs1 imm => encodeI imm rs1 0b000#3 rd 0b0010011#7
  | .slti rd rs1 imm => encodeI imm rs1 0b010#3 rd 0b0010011#7
  | .sltiu rd rs1 imm => encodeI imm rs1 0b011#3 rd 0b0010011#7
  | .xori rd rs1 imm => encodeI imm rs1 0b100#3 rd 0b0010011#7
  | .ori rd rs1 imm => encodeI imm rs1 0b110#3 rd 0b0010011#7
  | .andi rd rs1 imm => encodeI imm rs1 0b111#3 rd 0b0010011#7
  | .slli rd rs1 imm => encodeI imm rs1 0b001#3 rd 0b0010011#7
  | .srli rd rs1 imm => encodeI imm rs1 0b101#3 rd 0b0010011#7
  | .srai rd rs1 imm => encodeI imm rs1 0b101#3 rd 0b0010011#7
  | .lb rd rs1 imm => encodeI imm rs1 0b000#3 rd 0b0000011#7
  | .lh rd rs1 imm => encodeI imm rs1 0b001#3 rd 0b0000011#7
  | .lw rd rs1 imm => encodeI imm rs1 0b010#3 rd 0b0000011#7
  | .lbu rd rs1 imm => encodeI imm rs1 0b100#3 rd 0b0000011#7
  | .lhu rd rs1 imm => encodeI imm rs1 0b101#3 rd 0b0000011#7
  | .jalr rd rs1 imm => encodeI imm rs1 0b000#3 rd 0b1100111#7
  | .sb rs1 rs2 imm => encodeS imm rs2 rs1 0b000#3 0b0100011#7
  | .sh rs1 rs2 imm => encodeS imm rs2 rs1 0b001#3 0b0100011#7
  | .sw rs1 rs2 imm => encodeS imm rs2 rs1 0b010#3 0b0100011#7
  | .beq rs1 rs2 off => encodeB off rs2 rs1 0b000#3 0b1100011#7
  | .bne rs1 rs2 off => encodeB off rs2 rs1 0b001#3 0b1100011#7
  | .blt rs1 rs2 off => encodeB off rs2 rs1 0b100#3 0b1100011#7
  | .bge rs1 rs2 off => encodeB off rs2 rs1 0b101#3 0b1100011#7
  | .bltu rs1 rs2 off => encodeB off rs2 rs1 0b110#3 0b1100011#7
  | .bgeu rs1 rs2 off => encodeB off rs2 rs1 0b111#3 0b1100011#7
  | .lui rd imm => encodeU imm rd 0b0110111#7
  | .auipc rd imm => encodeU imm rd 0b0010111#7
  | .jal rd off => encodeJ off rd 0b1101111#7
  | .fmvXW rd fs1 => encodeR 0b1110000#7 0b00000#5 fs1 0b000#3 rd 0b1010011#7
  | .fmvWX fd rs1 => encodeR 0b1111000#7 0b00000#5 rs1 0b000#3 fd 0b1010011#7
  | .fence imm rs1 rd => encodeI imm rs1 0b000#3 rd 0b0001111#7
  | .ecall => 0x00000073#32
  | .ebreak => 0x00100073#32

end Sys2Proof
end

