-- ==== Sys2Proof/Machine/Fetch.lean ====
section
/-! DEFINITION. Machine/Fetch.lean: the program store `Prog` and the fetch (10_state.md rule R29, 60_exceptions.md rules
R181, R185, R186). -/

namespace Sys2Proof.Machine

/-- `Prog(a)`: the statement at `a`, if there is one (10_state.md rule R29). -/
def statementAt (program : List Statement) (a : Word) : Option Statement :=
  program.find? (fun st => st.address = a)

/-- The statement at `pc`. Fetch reads `Prog` and never `M`; it checks no segment and no alignment (rule R185). -/
def fetchStatement (s : State) : Option Statement := statementAt s.params.program s.pc

/-- Fetch and decode, the first two tests of `Step` (rule R181). -/
def fetchInstr (s : State) : Except Fault Instr :=
  match fetchStatement s with
  | none => .error (.fetchFault s.pc)
  | some st =>
    match decode st.code with
    | .error _ => .error (.illegalInstruction s.pc st.code)
    | .ok i => .ok i

/-- `st` put at its address in the program: in the place of the statement there, else as the last one. Not an operation of
the block, whose program store is read-only; it stands for the link that supplies a program (log entry 5). -/
def placeStatement (st : Statement) : List Statement → List Statement
  | [] => [st]
  | t :: ts => if t.address = st.address then st :: ts else t :: placeStatement st ts

/-- `s` with the word `w` linked at `pc` under the mnemonic that `Decode` gives it (log entry 5). -/
def linkWordAtPc (s : State) (w : Word) : State :=
  let program := placeStatement ⟨s.pc, w, mnemonicOfWord w⟩ s.params.program
  { s with params := { s.params with program := program } }

end Sys2Proof.Machine
end

