-- ==== Sys2Proof/Machine/Step.lean ====
section
/-! DEFINITION. Machine/Step.lean: `Step` (60_exceptions.md rule R181), and the loading of one word for the host's test. -/

namespace Sys2Proof.Machine

/-- One step: fetch, decode, execute (rule R181). Nothing else moves: the instruction itself sets `pc` (10_state.md rule
R21), there is no delay slot and no interrupt (rules R193, R226). A `.next` state is the outcome that its `report` names
(`Retired`, `EnvCall` or `Break`); a `.fault` is the fault, with the state unchanged (rule R180). -/
def step (s : State) : Host.Outcome State Fault Refusal :=
  match fetchInstr s with
  | .error e => raise e
  | .ok i => exec i s

/-- `s` with the word `w` of `nbits` bits linked into the program store at `pc`, the bits above them 0 (log entry 5: this
stands for the load of a program from outside the machine). -/
def State.withFetchWord (s : State) (nbits w : Nat) : State := linkWordAtPc s (BitVec.ofNat 32 (w % 2 ^ nbits))

end Sys2Proof.Machine
end

