-- ==== Sys2Proof/Machine/Reset.lean ====
section
/-! DEFINITION. Machine/Reset.lean: the reset transition, the block's other transition besides `Step`
(70_reset_and_hazards.md rules R220 to R222). -/

namespace Sys2Proof.Machine

/-- `Reset` (rule R220): registers, `pc`, float registers and every byte of memory take their initial values; the parameters
stay (rule R222). -/
def resetBlock (s : State) : State := State.ofParams s.params

end Sys2Proof.Machine
end

