-- ==== Sys2Proof/Machine/Run.lean ====
section
/-! DEFINITION. Machine/Run.lean: the host's answer to an environment call, and the end of a run (46_system.md rule R172,
60_exceptions.md rule R205, 70_reset_and_hazards.md rule R225). These drive the block; they are no part of `step`. -/

namespace Sys2Proof.Machine

/-- What the host answers to `EnvCall` (rule R172). -/
inductive EcallAnswer where
  /-- the clean end of the run -/
  | exit
  /-- stepping goes on from the state the host chooses -/
  | resume (s : State)
  deriving DecidableEq, Repr

/-- The parameter `HOST_ECALL` (00_scope.md section 4): a function from the state at the `ecall`. -/
abbrev HostEcall := State → EcallAnswer

/-- The default `HOST_ECALL`: always `exit` (rule R172). -/
def exitAlways : HostEcall := fun _ => .exit

/-- `resume(S')`: the host chooses the state tuple; the parameters are fixed for the run (10_state.md rule R35). -/
def resumeWith (s s' : State) : State := { s with x := s'.x, pc := s'.pc, f := s'.f, mem := s'.mem }

/-- How a run stands after some steps (rule R225). -/
inductive RunEnd where
  /-- the clean end: `EnvCall` answered with `exit`; the state at that `ecall` -/
  | exited (s : State)
  /-- an end in error: the fault, and the state before the offending instruction -/
  | faulted (e : Fault) (s : State)
  /-- an end in error: `Break`; the state at that `ebreak` -/
  | broke (s : State)
  /-- not ended within the steps asked for -/
  | unfinished (s : State)
  /-- an instruction without a meaning in this model; no state answers so -/
  | refused (r : Refusal) (s : State)
  deriving DecidableEq, Repr

/-- At most `n` steps from `s`, stopping at the end of the run (rules R205, R225). -/
def runFor (host : HostEcall) : Nat → State → RunEnd
  | 0, s => .unfinished s
  | n + 1, s =>
    match step s with
    | .fault e => .faulted e s
    | .refused r => .refused r s
    | .next t =>
      match t.report with
      | .envCall _ =>
        match host t with
        | .exit => .exited t
        | .resume s' => runFor host n (resumeWith t s')
      | .brk _ => .broke t
      | .retired _ => runFor host n t
      | .idle => runFor host n t

end Sys2Proof.Machine
end

