-- ==== Sys2Proof/Machine/Debugger.lean ====
section
/-! DEFINITION. Machine/Debugger.lean: the host of the block, the debugger control loop (60_exceptions.md rules R200 to
R216). It is no part of the block (00_scope.md rule R5): a `Session` holds the block and what the host owns besides it. -/

namespace Sys2Proof.Machine

-- The breakpoint map.

/-- The flag of a breakpoint (rule R203): armed stops `continue`; disarmed means just stopped here. -/
inductive BpFlag where
  | armed
  | disarmed
  deriving DecidableEq, Repr

/-- `BP`: a finite partial map from address to flag (rule R203), as a list with rising addresses. -/
abbrev BpMap := List (Word × BpFlag)

/-- `BP[a]`, if `a` is in it. -/
def bpFlag (bp : BpMap) (a : Word) : Option BpFlag := (bp.find? (fun e => e.1 = a)).map (·.2)

/-- `BP[a] <- f` for an address in the map; no effect for another. -/
def bpSetFlag (bp : BpMap) (a : Word) (f : BpFlag) : BpMap := bp.map (fun e => if e.1 = a then (a, f) else e)

/-- `a` inserted as armed if it is not already present (rule R206). -/
def bpInsert : BpMap → Word → BpMap
  | [], a => [(a, .armed)]
  | e :: bp, a => if a < e.1 then (a, .armed) :: e :: bp else if a = e.1 then e :: bp else e :: bpInsert bp a

/-- `a` removed (rule R208). -/
def bpRemove (bp : BpMap) (a : Word) : BpMap := bp.filter (fun e => e.1 ≠ a)

/-- A legal breakpoint target: word-aligned and in the text segment (rule R206). -/
def bpLegal (p : Params) (a : Word) : Bool := isAligned a .word && inRange p.segments.text a

-- Names and numbers as the host reads them.

/-- What a register name selects (10_state.md rule R19). -/
inductive RegName where
  | x (r : XReg)
  | f (r : FReg)
  | pc
  deriving DecidableEq, Repr

/-- `x0` to `x31` (10_state.md rule R16). -/
def xNames : List String :=
  ["x0", "x1", "x2", "x3", "x4", "x5", "x6", "x7", "x8", "x9", "x10", "x11", "x12", "x13", "x14", "x15"] ++
  ["x16", "x17", "x18", "x19", "x20", "x21", "x22", "x23", "x24", "x25", "x26", "x27", "x28", "x29", "x30", "x31"]

/-- The alias of each integer register (10_state.md rule R16). -/
def xAliases : List String :=
  ["zero", "ra", "sp", "gp", "tp", "t0", "t1", "t2", "s0", "s1", "a0", "a1", "a2", "a3", "a4", "a5"] ++
  ["a6", "a7", "s2", "s3", "s4", "s5", "s6", "s7", "s8", "s9", "s10", "s11", "t3", "t4", "t5", "t6"]

/-- `f0` to `f31`, which have no aliases (10_state.md rule R25). -/
def fNames : List String :=
  ["f0", "f1", "f2", "f3", "f4", "f5", "f6", "f7", "f8", "f9", "f10", "f11", "f12", "f13", "f14", "f15"] ++
  ["f16", "f17", "f18", "f19", "f20", "f21", "f22", "f23", "f24", "f25", "f26", "f27", "f28", "f29", "f30", "f31"]

/-- Name-based lookup (10_state.md rule R19): `none` for an unknown name. -/
def lookupRegister (name : String) : Option RegName :=
  if name = "pc" then some .pc
  else if name = "fp" then some (.x 8#5)
  else match xNames.idxOf? name, xAliases.idxOf? name, fNames.idxOf? name with
    | some k, _, _ => some (.x (BitVec.ofNat 5 k))
    | none, some k, _ => some (.x (BitVec.ofNat 5 k))
    | none, none, some k => some (.f (BitVec.ofNat 5 k))
    | none, none, none => none

/-- The value that a register name shows. -/
def registerValue (s : State) (r : RegName) : Word :=
  match r with
  | .x r => s.readX r
  | .f r => s.readF r
  | .pc => s.pc

/-- The value of a digit in base 10 or 16. -/
def digitValue (c : Char) : Option Nat :=
  if '0' ≤ c ∧ c ≤ '9' then some (c.toNat - 48)
  else if 'a' ≤ c ∧ c ≤ 'f' then some (c.toNat - 87)
  else if 'A' ≤ c ∧ c ≤ 'F' then some (c.toNat - 55)
  else none

/-- The number that digits spell in a base, `acc` being what stands before them. -/
def digitsValue (base : Nat) : List Char → Nat → Option Nat
  | [], acc => some acc
  | c :: cs, acc =>
    match digitValue c with
    | none => none
    | some d => if d < base then digitsValue base cs (acc * base + d) else none

/-- A number in hexadecimal (`0x` prefix) or decimal text form (rule R213). -/
def parseNumber (token : String) : Option Nat :=
  match token.toList with
  | [] => none
  | '0' :: 'x' :: c :: cs => digitsValue 16 (c :: cs) 0
  | c :: cs => digitsValue 10 (c :: cs) 0

/-- An address argument: a number of 32 bits (rules R206, R213; log entry 22). -/
def parseAddress (token : String) : Option Word :=
  match parseNumber token with
  | none => none
  | some n => if n < 2 ^ 32 then some (BitVec.ofNat 32 n) else none

-- Commands.

/-- The commands (rules R201 to R214). An argument that does not parse is `none`. -/
inductive Command where
  | step
  | continue
  | breakpoint (a : Option Word)
  | clear
  | delete (a : Option Word)
  | list
  | reset
  | print (r : Option RegName)
  | memory (a : Option Word) (rows : Option Nat)
  | globals
  | locals (file : String)
  | showx
  | showf
  | again
  | help
  | exit
  /-- a command that lacks an argument it cannot do without (rule R214; log entry 22) -/
  | badUsage
  | unknown
  deriving DecidableEq, Repr

/-- One line of input as the host reads it: the command, and whether arguments stand behind those the command takes
(rule R214: such arguments are warned of and ignored). -/
structure Invocation where
  command : Command
  extra : Bool
  deriving DecidableEq, Repr

/-- An upper-case letter as its lower-case one; every other character as it is. -/
def lowerChar (c : Char) : Char := if 'A' ≤ c ∧ c ≤ 'Z' then Char.ofNat (c.toNat + 32) else c

/-- The token that selects a command, without regard to case (rule R200). -/
def lowerToken (token : String) : String := String.ofList (token.toList.map lowerChar)

/-- The characters that part the tokens of a line. The spec names none (DESIGN CHOICE, safe: log entry 30). -/
def isBlank (c : Char) : Bool := c = ' ' || c = '\t' || c = '\r' || c = '\n'

/-- The tokens of a line, `acc` being the token read so far, its last character first. -/
def splitTokens : List Char → List Char → List (List Char)
  | [], acc => if acc.isEmpty then [] else [acc.reverse]
  | c :: cs, acc =>
    if isBlank c then if acc.isEmpty then splitTokens cs [] else acc.reverse :: splitTokens cs []
    else splitTokens cs (c :: acc)

/-- A line of input as its tokens (rule R200). -/
def tokensOf (line : String) : List String := (splitTokens line.toList []).map String.ofList

/-- The names by which commands are called, the short ones after the long (rules R201 to R212): the list that `help` shows. -/
def commandNames : List String :=
  ["step", "continue", "breakpoint", "clear", "delete", "list", "reset", "print", "memory", "globals", "locals"] ++
  ["showx", "showf", "!", "help", "exit", "quit", "s", "c", "b", "?"]

/-- A command without arguments: all that stand there are extra (rule R214). -/
def withoutArgs (c : Command) (args : List String) : Invocation := ⟨c, !args.isEmpty⟩

/-- A command that cannot do without its one argument: a hard usage error if it lacks it (rule R214; log entry 22). -/
def withOneArg (f : String → Command) (args : List String) : Invocation :=
  match args with
  | [] => ⟨.badUsage, false⟩
  | a :: rest => ⟨f a, !rest.isEmpty⟩

/-- `memory <address> [rows]`, 12 rows by default (rule R211). -/
def memoryArgs (args : List String) : Invocation :=
  match args with
  | [] => ⟨.badUsage, false⟩
  | [a] => ⟨.memory (parseAddress a) (some 12), false⟩
  | a :: n :: rest => ⟨.memory (parseAddress a) (parseNumber n), !rest.isEmpty⟩

/-- The command that the first token selects, case-insensitive, with the remaining tokens as arguments (rules R200, R214). -/
def parseCommand (first : String) (args : List String) : Invocation :=
  match lowerToken first with
  | "step" | "s" => withoutArgs .step args
  | "continue" | "c" => withoutArgs .continue args
  | "breakpoint" | "b" => withOneArg (fun a => .breakpoint (parseAddress a)) args
  | "clear" => withoutArgs .clear args
  | "delete" => withOneArg (fun a => .delete (parseAddress a)) args
  | "list" => withoutArgs .list args
  | "reset" => withoutArgs .reset args
  | "print" => withOneArg (fun r => .print (lookupRegister r)) args
  | "memory" => memoryArgs args
  | "globals" => withoutArgs .globals args
  | "locals" => withOneArg .locals args
  | "showx" => withoutArgs .showx args
  | "showf" => withoutArgs .showf args
  | "!" => withoutArgs .again args
  | "help" | "?" => withoutArgs .help args
  | "exit" | "quit" => withoutArgs .exit args
  | _ => ⟨.unknown, false⟩

/-- A symbol table: names and their addresses. The spec says that there are such tables (00_scope.md rule R6) and not what an
entry of one is (DESIGN CHOICE, safe: log entry 27). -/
abbrev SymbolTable := List (String × Word)

/-- The symbol tables that come with the linked program (00_scope.md rule R6): the global one, and the local one of each
file by the file's name. No rule of the block reads them. -/
structure Symbols where
  globals : SymbolTable
  locals : List (String × SymbolTable)
  deriving DecidableEq, Repr

/-- The local symbol table of a file; `none` for a file name that is unknown (rule R211). -/
def localsOf (sy : Symbols) (file : String) : Option SymbolTable := (sy.locals.find? (fun e => e.1 = file)).map (·.2)

/-- What the host shows its user. The text format is not in the source. -/
inductive Message where
  /-- a runtime execution error, which names the `pc` (rules R201, R202) -/
  | fault (e : Fault)
  /-- a non-fatal memory warning (rule R182) -/
  | warning (w : Warning)
  /-- the `ebreak` at `pc` (rule R192) -/
  | breakInstr (pc : Word)
  /-- the clean end of the run, by the `ecall` at `pc` (rule R205) -/
  | programExit (pc : Word)
  /-- `continue` stopped at the breakpoint `a` (rule R202) -/
  | stoppedAt (a : Word)
  /-- a breakpoint address that is rejected (rule R206) -/
  | rejected
  /-- `delete` of an address that is absent: a warning (rule R208) -/
  | absent (a : Word)
  /-- the breakpoint addresses (rule R209) -/
  | breakpoints (as : List Word)
  /-- a register's value (rule R211) -/
  | value (r : RegName) (v : Word)
  /-- rows of 4 word-sized cells (20_memory.md rule R57) -/
  | cells (rows : List (Word × List Word))
  /-- a whole register file (rule R211) -/
  | registers (vs : List Word)
  /-- a symbol table (rule R211) -/
  | symbols (table : SymbolTable)
  /-- the list of commands (rule R212) -/
  | helpText (names : List String)
  /-- a user-input error: a bad address, register, file name or number (rule R213) -/
  | inputError
  /-- a hard usage error: an argument is missing, or `!` has no preceding command (rules R213, R214; log entries 22, 26) -/
  | usageError
  /-- a warning: arguments behind those the command takes are ignored (rule R214) -/
  | extraArguments
  /-- an unknown command, warned and ignored (rule R214) -/
  | unknownCommand
  /-- the input stream failed (rule R198) -/
  | inputFailure
  /-- an instruction without a meaning in this model; no state answers so -/
  | refused (r : Refusal)
  deriving DecidableEq, Repr

/-- The states of the command loop (rule R200). DESIGN CHOICE, safe (log entry 26), where the rule says no more than their
names: a command that executes no statement, `reset` among them, and a `step` or `continue` that ends in an error leave
`awaitingCommand`, and nothing leads back to `idle`. -/
inductive Status where
  /-- no statement stepped yet and no command taken; the first command is taken from here -/
  | idle
  | awaitingCommand
  | stepped
  /-- `continue` has not stopped within the passes it was given: no command is awaited (rule R193; log entry 26) -/
  | running
  | halted (a : Word)
  /-- terminal: the process ended with this status, 0 after `exit` and `quit` (rule R212); `none` after a failure of the
  input stream, for which the spec gives no status (rules R198, R200) -/
  | terminated (code : Option Nat)
  /-- terminal: the clean program exit (rules R200, R205); its process status is the external mechanism's (U21) -/
  | programExited
  deriving DecidableEq, Repr

/-- Whether the loop awaits a command: not while `continue` runs, which is "not interruptible mid-flight by another command"
(rule R193), and not after the end. -/
def awaitsCommand (st : Status) : Bool :=
  match st with
  | .idle | .awaitingCommand | .stepped | .halted _ => true
  | .running | .terminated _ | .programExited => false

/-- The host with the block (rule R200). -/
structure Session where
  core : State
  /-- `BP` (rule R203) -/
  bp : BpMap
  /-- the previous command, with its arguments (rule R212) -/
  previous : Option Invocation
  status : Status
  /-- the symbol tables of the linked program (rule R211) -/
  symbols : Symbols
  deriving DecidableEq, Repr

/-- The breakpoint map at the start: the declared addresses, all armed (rule R203). Every address of the map is a legal target,
so a declared address that is none is not inserted, as `breakpoint` would reject it (DESIGN CHOICE, safe: log entry 26). -/
def declaredBreakpoints (p : Params) (declared : List Word) : BpMap := (declared.filter (bpLegal p)).foldl bpInsert []

/-- The start of a session: the reset state, and the declared breakpoints, all armed (rules R203, R223). -/
def Session.start (p : Params) (declared : List Word) (symbols : Symbols) : Session where
  core := State.ofParams p
  bp := declaredBreakpoints p declared
  previous := none
  status := .idle
  symbols := symbols

/-- The warnings that a report carries (rule R180). -/
def warningsOf (r : Report) : List Message :=
  match r with
  | .retired ws => ws.map Message.warning
  | .idle => []
  | .envCall _ => []
  | .brk _ => []

/-- `step` (rule R201). -/
def hostStep (host : HostEcall) (d : Session) : Session × List Message :=
  match step d.core with
  | .fault e => ({ d with status := .awaitingCommand }, [.fault e])
  | .refused r => ({ d with status := .awaitingCommand }, [.refused r])
  | .next t =>
    match t.report with
    | .brk pc => ({ d with core := t, status := .awaitingCommand }, [.breakInstr pc])
    | .envCall pc =>
      match host t with
      | .exit => ({ d with core := t, status := .programExited }, [.programExit pc])
      | .resume s' => ({ d with core := resumeWith t s', status := .stepped }, [])
    | .retired ws =>
      ({ d with core := t, bp := bpSetFlag d.bp d.core.pc .armed, status := .stepped }, ws.map Message.warning)
    | .idle => ({ d with core := t, bp := bpSetFlag d.bp d.core.pc .armed, status := .stepped }, [])

/-- The breakpoint map with which `continue` executes the statement at `p`: a disarmed breakpoint there is re-armed first
(rule R202, 90_conflicts.md C3). -/
def rearmAt (bp : BpMap) (p : Word) : BpMap := if bpFlag bp p = some .disarmed then bpSetFlag bp p .armed else bp

/-- `continue` (rule R202) for at most `n` passes of its loop, `ms` being the messages so far. -/
def hostContinue (host : HostEcall) : Nat → Session → List Message → Session × List Message
  | 0, d, ms => ({ d with status := .running }, ms)
  | n + 1, d, ms =>
    if (fetchStatement d.core).isNone then
      ({ d with status := .awaitingCommand }, ms ++ [.fault (.fetchFault d.core.pc)])
    else if bpFlag d.bp d.core.pc = some .armed then
      ({ d with bp := bpSetFlag d.bp d.core.pc .disarmed, status := .halted d.core.pc }, ms ++ [.stoppedAt d.core.pc])
    else
      let bp := rearmAt d.bp d.core.pc
      match step d.core with
      | .fault e => ({ d with bp := bp, status := .awaitingCommand }, ms ++ [.fault e])
      | .refused r => ({ d with bp := bp, status := .awaitingCommand }, ms ++ [.refused r])
      | .next t =>
        match t.report with
        | .brk pc => ({ d with core := t, bp := bp, status := .awaitingCommand }, ms ++ [.breakInstr pc])
        | .envCall pc =>
          match host t with
          | .exit => ({ d with core := t, bp := bp, status := .programExited }, ms ++ [.programExit pc])
          | .resume s' => hostContinue host n { d with core := resumeWith t s', bp := bp } ms
        | .retired ws => hostContinue host n { d with core := t, bp := bp } (ms ++ ws.map Message.warning)
        | .idle => hostContinue host n { d with core := t, bp := bp } ms

/-- The rows of `memory` (20_memory.md rule R57): 4 word-sized cells each, in the byte order of rule R36. -/
def memoryRows (m : Memory) : Word → Nat → List (Word × List Word)
  | _, 0 => []
  | a, n + 1 =>
    (a, [readBytes m a .word, readBytes m (a + 4#32) .word, readBytes m (a + 8#32) .word, readBytes m (a + 12#32) .word])
      :: memoryRows m (a + 16#32) n

/-- The answer to a command that executes no statement: what is shown, and the next command is awaited (log entry 26). -/
def answer (d : Session) (ms : List Message) : Session × List Message := ({ d with status := .awaitingCommand }, ms)

/-- What one command other than `!` does (rules R201 to R214); `fuel` bounds the passes of `continue` (log entry 26). -/
def perform (host : HostEcall) (fuel : Nat) (c : Command) (d : Session) : Session × List Message :=
  match c with
  | .step => hostStep host d
  | .continue => hostContinue host fuel d []
  | .breakpoint none => answer d [.inputError]
  | .breakpoint (some a) => if bpLegal d.core.params a then answer { d with bp := bpInsert d.bp a } [] else answer d [.rejected]
  | .clear => answer { d with bp := [] } []
  | .delete none => answer d [.inputError]
  | .delete (some a) => if (bpFlag d.bp a).isSome then answer { d with bp := bpRemove d.bp a } [] else answer d [.absent a]
  | .list => answer d [.breakpoints (d.bp.map (·.1))]
  | .reset => answer { d with core := resetBlock d.core } []
  | .print none => answer d [.inputError]
  | .print (some r) => answer d [.value r (registerValue d.core r)]
  | .memory (some a) (some n) => answer d [.cells (memoryRows d.core.mem a n)]
  | .memory _ _ => answer d [.inputError]
  | .globals => answer d [.symbols d.symbols.globals]
  | .locals file =>
    match localsOf d.symbols file with
    | none => answer d [.inputError]
    | some table => answer d [.symbols table]
  | .showx => answer d [.registers ((List.range 32).map fun k => d.core.readX (BitVec.ofNat 5 k))]
  | .showf => answer d [.registers d.core.f.toList]
  | .again => answer d []
  | .help => answer d [.helpText commandNames]
  | .exit => ({ d with status := .terminated (some 0) }, [])
  | .badUsage => answer d [.usageError]
  | .unknown => answer d [.unknownCommand]

/-- The warning of extra arguments (rule R214). -/
def extraWarning (i : Invocation) : List Message := if i.extra then [.extraArguments] else []

/-- A command with its warning of extra arguments, which are ignored (rule R214). -/
def invoke (host : HostEcall) (fuel : Nat) (i : Invocation) (d : Session) : Session × List Message :=
  let r := perform host fuel i.command d
  (r.1, extraWarning i ++ r.2)

/-- One command of the loop (rule R200), taken only where the loop awaits one. `!` runs the preceding command again and is not
recorded itself (rule R212). DESIGN CHOICE, safe (log entry 26): the preceding command is the last one that is not `!`, whether
or not it was known, was well used or failed; the spec does not say. -/
def dispatch (host : HostEcall) (fuel : Nat) (i : Invocation) (d : Session) : Session × List Message :=
  if awaitsCommand d.status then
    if i.command = .again then
      match d.previous with
      | none => answer d (extraWarning i ++ [.usageError])
      | some j =>
        let r := invoke host fuel j d
        (r.1, extraWarning i ++ r.2)
    else
      let r := invoke host fuel i d
      ({ r.1 with previous := some i }, r.2)
  else (d, [])

/-- A `continue` that its bound cut off goes on (rules R193, R202; log entry 26): nothing comes between its passes. -/
def resumeRun (host : HostEcall) (fuel : Nat) (d : Session) : Session × List Message :=
  if d.status = .running then hostContinue host fuel d [] else (d, [])

/-- What the blocking read of the next command line gives (rule R215). -/
inductive Input where
  | line (text : String)
  /-- the input stream fails (rule R198) -/
  | failure
  deriving DecidableEq, Repr

/-- One input of the loop (rule R200): one line is one command; a failure of the stream ends the process (rule R198). A line
without a token is no command and changes nothing (DESIGN CHOICE, safe: log entry 30). -/
def takeInput (host : HostEcall) (fuel : Nat) (input : Input) (d : Session) : Session × List Message :=
  match input with
  | .failure => if awaitsCommand d.status then ({ d with status := .terminated none }, [.inputFailure]) else (d, [])
  | .line text =>
    match tokensOf text with
    | [] => (d, [])
    | first :: args => dispatch host fuel (parseCommand first args) d

/-- The command loop over a list of inputs (rules R200, R215). -/
def commandLoop (host : HostEcall) (fuel : Nat) : List Input → Session → Session × List Message
  | [], d => (d, [])
  | input :: inputs, d =>
    let r := takeInput host fuel input d
    let q := commandLoop host fuel inputs r.1
    (q.1, r.2 ++ q.2)

end Sys2Proof.Machine
end

