-- ==== Sys2Proof/Safety.lean ====
section
/-! DEFINITION. Safety.lean: the terms that statements are made in: legal parameters (00_scope.md section 4), the state
invariant, what a step leaves unchanged, and what a legal session is. -/

namespace Sys2Proof.Machine

-- Legal parameters.

/-- A range with its ends at multiples of 4 (00_scope.md section 4, rows `SEGMENTS` and `RESERVED`). -/
abbrev rangeWf (r : AddrRange) : Prop :=
  r.base ≤ r.limit ∧ r.base.toNat % 4 = 0 ∧ (r.limit.toNat + 1) % 4 = 0

/-- Two ranges share no address. -/
abbrev rangesDisjoint (r q : AddrRange) : Prop := r.limit < q.base ∨ q.limit < r.base

/-- The segments and the reserved ranges, all of them. -/
def allRanges (p : Params) : List AddrRange :=
  [p.segments.text, p.segments.data, p.segments.heap, p.segments.stack] ++ p.reserved

/-- The constraints on `SEGMENTS` and `RESERVED` (00_scope.md section 4). -/
abbrev layoutWf (p : Params) : Prop :=
  (∀ r ∈ allRanges p, rangeWf r) ∧ (allRanges p).Pairwise rangesDisjoint

/-- A statement of a validly linked program: in the text segment, at a multiple of 4, under the mnemonic that `Decode` gives
its machine code (00_scope.md section 4, row `PROGRAM`; 30_encoding.md rule R69). -/
abbrev statementWf (p : Params) (st : Statement) : Prop :=
  inRange p.segments.text st.address = true ∧ st.address.toNat % 4 = 0 ∧
    (decode st.code).toOption.map Instr.mnemonic = some st.mnemonic

/-- The constraints on `PROGRAM` and `PC_INIT` (00_scope.md section 4). -/
abbrev programWf (p : Params) : Prop :=
  (∀ st ∈ p.program, statementWf p st) ∧ p.program.Pairwise (fun st su => st.address ≠ su.address) ∧
    p.program.head?.all (fun st => st.address = p.pcInit) = true

/-- Parameters that the spec admits. -/
abbrev paramsWf (p : Params) : Prop := layoutWf p ∧ Memory.wf p.memInit ∧ programWf p

-- The invariant.

/-- The byte of memory at `a` (10_state.md rule R27). -/
def byteAt (s : State) (a : Word) : Byte := readByte s.mem a

/-- A byte that no store may write: its region does not admit a store (20_memory.md rule R41). -/
def readOnlyAt (p : Params) (a : Word) : Bool := !storeAllowed p (regionOf p a)

/-- The warnings that a report carries (60_exceptions.md rule R180). -/
def reportWarnings (r : Report) : List Warning :=
  match r with
  | .retired ws => ws
  | .idle => []
  | .envCall _ => []
  | .brk _ => []

/-- What every step keeps: the parameters are legal, memory is in canonical form, every byte that no store may write holds its
`MEM_INIT` value (20_memory.md rule R48), and a step has emitted at most one warning (60_exceptions.md rule R182). -/
structure State.Inv (s : State) : Prop where
  params : paramsWf s.params
  memory : Memory.wf s.mem
  readOnly : ∀ a, readOnlyAt s.params a = true → byteAt s a = readByte s.params.memInit a
  warnings : (reportWarnings s.report).length ≤ 1

-- Runs.

/-- `n` steps lead from `s` to `t`, each to a next state. -/
def ReachesIn : Nat → State → State → Prop
  | 0, s, t => t = s
  | n + 1, s, t => ∃ u, step s = .next u ∧ ReachesIn n u t

-- What an instruction leaves unchanged.

/-- Every byte of memory reads as before. -/
def SameMemory (s t : State) : Prop := ∀ a, byteAt t a = byteAt s a

/-- Every integer register reads as before. -/
def SameX (s t : State) : Prop := ∀ r, t.readX r = s.readX r

/-- Every float register reads as before. -/
def SameF (s t : State) : Prop := ∀ r, t.readF r = s.readF r

/-- The step retired with `pc` at `target` and the warnings `ws`, and the parameters are as before. -/
structure RetiredAt (s t : State) (target : Word) (ws : List Warning) : Prop where
  pc : t.pc = target
  report : t.report = .retired ws
  params : t.params = s.params

/-- The integer file changed in `rd` alone, which holds `v`; for `rd = x0` it did not change, and `x0` reads 0
(10_state.md rules R14, R15). -/
structure OnlyX (s t : State) (rd : XReg) (v : Word) : Prop where
  dest : rd ≠ 0 → t.readX rd = v
  zero : t.readX 0 = 0
  others : ∀ r, r ≠ rd → t.readX r = s.readX r

/-- The instruction's whole effect is to write `v` to `x[rd]` and to advance `pc` by 4, with no warning. -/
structure WritesX (s t : State) (rd : XReg) (v : Word) : Prop where
  retired : RetiredAt s t (s.pc + 4) []
  x : OnlyX s t rd v
  f : SameF s t
  mem : SameMemory s t

/-- The instruction's whole effect is to set `pc` to `target`, with no warning. -/
structure OnlyPc (s t : State) (target : Word) : Prop where
  retired : RetiredAt s t target []
  x : SameX s t
  f : SameF s t
  mem : SameMemory s t

/-- The addresses of an access of width `n` at `a`: `a .. a+n-1` (20_memory.md rule R49). -/
def accessBytes (a : Word) (n : Width) : List Word := (List.range (widthBytes n)).map fun k => a + BitVec.ofNat 32 k

/-- The instruction's whole effect is to store the low `n` bytes of `v` at `a`, least significant first, and to advance `pc`
by 4, with no warning. -/
structure StoresAt (s t : State) (a : Word) (n : Width) (v : Word) : Prop where
  retired : RetiredAt s t (s.pc + 4) []
  x : SameX s t
  f : SameF s t
  stored : ∀ k, k < widthBytes n → byteAt t (a + BitVec.ofNat 32 k) = v.extractLsb' (8 * k) 8
  others : ∀ b, b ∉ accessBytes a n → byteAt t b = byteAt s b

/-- A load of width `n` at `a` is admitted (20_memory.md rules R41, R45). -/
def LoadAdmitted (s : State) (a : Word) (n : Width) : Prop :=
  loadAllowed s.params (regionOf s.params a) = true ∧ a.toNat % widthBytes n = 0

/-- A store of width `n` at `a` is admitted (20_memory.md rules R41, R46). -/
def StoreAdmitted (s : State) (a : Word) (n : Width) : Prop :=
  storeAllowed s.params (regionOf s.params a) = true ∧ a.toNat % widthBytes n = 0

/-- The warnings of an admitted load: `ReservedRead(a)` in a reserved range, else none (20_memory.md rule R45). -/
def LoadWarnings (s : State) (a : Word) (ws : List Warning) : Prop :=
  (regionOf s.params a = .reserved → ws = [.reservedRead a]) ∧ (regionOf s.params a ≠ .reserved → ws = [])

/-- The instruction's whole effect is to write `v`, loaded from `a`, to `x[rd]` and to advance `pc` by 4. -/
structure LoadsX (s t : State) (rd : XReg) (a v : Word) : Prop where
  retired : ∃ ws, LoadWarnings s a ws ∧ RetiredAt s t (s.pc + 4) ws
  x : OnlyX s t rd v
  f : SameF s t
  mem : SameMemory s t

/-- The instruction's whole effect is to write the link `pc + 4` to `x[rd]` and to set `pc` to `target`, with no warning. -/
structure JumpsLinking (s t : State) (rd : XReg) (target : Word) : Prop where
  retired : RetiredAt s t target []
  x : OnlyX s t rd (s.pc + 4)
  f : SameF s t
  mem : SameMemory s t

/-- The instruction's whole effect is to write `v` to `f[fd]` and to advance `pc` by 4, with no warning. -/
structure WritesF (s t : State) (fd : FReg) (v : Word) : Prop where
  retired : RetiredAt s t (s.pc + 4) []
  x : SameX s t
  dest : t.readF fd = v
  others : ∀ r, r ≠ fd → t.readF r = s.readF r
  mem : SameMemory s t

/-- The step's whole effect is the report `r`: the state tuple, `pc` included, and the parameters are as before. -/
structure OnlyReports (s t : State) (r : Report) : Prop where
  report : t.report = r
  pc : t.pc = s.pc
  x : SameX s t
  f : SameF s t
  mem : SameMemory s t
  params : t.params = s.params

/-- The instruction completes, and its whole effect is to write to `x[rd]` a value that meets `P` and to advance `pc`
by 4. -/
def CompletesWithX (i : Instr) (s : State) (rd : XReg) (P : Word → Prop) : Prop :=
  ∃ t v, exec i s = .next t ∧ WritesX s t rd v ∧ P v

/-- A load of width `n` from `a` completes, and its whole effect is to write to `x[rd]` a value that meets `P`, to advance
`pc` by 4 and to warn as rule R45 of 20_memory.md says. -/
def CompletesLoad (i : Instr) (s : State) (rd : XReg) (a : Word) (P : Word → Prop) : Prop :=
  ∃ t v, exec i s = .next t ∧ LoadsX s t rd a v ∧ P v

/-- A store of the low `n` bytes of `v` at `a` completes, and that is its whole effect besides `pc`. -/
def CompletesStore (i : Instr) (s : State) (a : Word) (n : Width) (v : Word) : Prop :=
  ∃ t, exec i s = .next t ∧ StoresAt s t a n v

/-- The instruction completes and its whole effect is to set `pc`: to the branch target, `off` bytes from `pc` modulo 2^32,
if `taken` holds, else to `pc + 4`. -/
def CompletesBranch (i : Instr) (s : State) (off : BitVec 13) (taken : Prop) : Prop :=
  ∃ t target, exec i s = .next t ∧ OnlyPc s t target ∧
    (taken → (target.toNat : Int) = ((s.pc.toNat : Int) + off.toInt) % 2 ^ 32) ∧
    (¬ taken → target.toNat = (s.pc.toNat + 4) % 2 ^ 32)

-- Kinds of instructions.

/-- The three stores. -/
def isStore (i : Instr) : Bool := i.mnemonic ∈ ["sb", "sh", "sw"]

/-- The five loads. -/
def isLoad (i : Instr) : Bool := i.mnemonic ∈ ["lb", "lh", "lw", "lbu", "lhu"]

/-- The instructions that do not just advance `pc`: branches, jumps, and the two that report to the host. -/
def isTransfer (i : Instr) : Bool :=
  i.mnemonic ∈ ["beq", "bne", "blt", "bge", "bltu", "bgeu", "jal", "jalr", "ecall", "ebreak"]

/-- `fmv.x.w`, the one instruction that reads the float file. -/
def readsFloat (i : Instr) : Bool := i.mnemonic = "fmv.x.w"

/-- `fmv.w.x`, the one instruction that writes the float file. -/
def writesFloat (i : Instr) : Bool := i.mnemonic = "fmv.w.x"

/-- Two states that agree on everything but the float file. -/
structure AgreeButF (s s' : State) : Prop where
  x : s.x = s'.x
  pc : s.pc = s'.pc
  mem : s.mem = s'.mem
  params : s.params = s'.params
  report : s.report = s'.report

-- Sessions.

/-- A breakpoint map that the commands can build: rising addresses, each a legal target (60_exceptions.md rule R203). -/
def bpWf (p : Params) (bp : BpMap) : Prop :=
  bp.Pairwise (fun e g => e.1 < g.1) ∧ ∀ e ∈ bp, bpLegal p e.1 = true

/-- The fault carries this `pc` (60_exceptions.md rule R184). -/
def faultPc (e : Fault) : Word :=
  match e with
  | .fetchFault pc => pc
  | .illegalInstruction pc _ => pc
  | .loadAccessFault pc _ => pc
  | .loadMisaligned pc _ => pc
  | .storeAccessFault pc _ => pc
  | .storeMisaligned pc _ => pc

end Sys2Proof.Machine
end

