-- ==== Sys2Proof/Certificates/Slice0/Obligations.lean ====
section
/-! DEFINITION. Certificates/Slice0/Obligations.lean: the statements for the provers. Each docstring names the rule of spec/
that the statement formalises. Where the spec marks that rule as its own decision (D<n>) or as general knowledge (G<n>), or
where the clause is this model's choice (log entry <n>), the docstring says so and the statement's basis is "derived". -/

open Sys2Proof Sys2Proof.Machine

-- Encoding.

/-- Words written out in the instruction files, one or more of each family (40 to 46, section "Example" of each rule; every
bit position is general knowledge, G1 to G3). -/
def Obligations.WrittenWordsDecode : Prop :=
  decode 0x002081B3#32 = .ok (.add 3 1 2) ∧ decode 0x4020D1B3#32 = .ok (.sra 3 1 2) ∧
  decode 0x00F0F193#32 = .ok (.andi 3 1 15) ∧ decode 0x02109093#32 = .ok (.slli 1 1 33) ∧
  decode 0x4040D193#32 = .ok (.srai 3 1 0x404) ∧ decode 0x00812283#32 = .ok (.lw 5 2 8) ∧
  decode 0x00B51023#32 = .ok (.sh 10 11 0) ∧ decode 0xFE512E23#32 = .ok (.sw 2 5 (-4)) ∧
  decode 0xFE029CE3#32 = .ok (.bne 5 0 (-8)) ∧ decode 0x10000537#32 = .ok (.lui 10 0x10000) ∧
  decode 0x00C000EF#32 = .ok (.jal 1 12) ∧ decode 0x00008067#32 = .ok (.jalr 0 1 0) ∧
  decode 0xE00085D3#32 = .ok (.fmvXW 11 1) ∧ decode 0xF00500D3#32 = .ok (.fmvWX 1 10) ∧
  decode 0x0FF0000F#32 = .ok (.fence 0x0FF 0 0) ∧ decode 0x00000073#32 = .ok .ecall ∧
  decode 0x00100073#32 = .ok .ebreak

/-- The decoder reads every well-formed instruction back from its word, with every operand (30_encoding.md sections 2 to 4;
that the ignored bits are kept in the term is log entry 12). -/
def Obligations.DecodeOfEncodeIsTheInstruction : Prop :=
  ∀ i : Instr, i.wf = true → decode (encode i) = .ok i

/-- The other direction: whatever word decodes is the encoding of the instruction it decodes to, so no bit of a legal word is
lost, the ignored ones included (30_encoding.md sections 2 to 5; log entry 12). -/
def Obligations.DecodedWordsAreEncodings : Prop :=
  ∀ (w : Word) (i : Instr), decode w = .ok i → i.wf = true ∧ encode i = w

/-- `Decode` is the table of 30_encoding.md section 4: a word decodes to a row's instruction exactly when
`inst & mask = match` for that row, no two rows match one word, and a word that no row matches is illegal. The table's
values are general knowledge (G3), selection by bits is D4. -/
def Obligations.DecodeAgreesWithTheTable : Prop :=
  ∀ w : Word,
    (∀ i, decode w = .ok i → ∃ r ∈ opcodeTable, r.mnemonic = i.mnemonic ∧ w &&& r.mask = r.pattern) ∧
    (∀ r ∈ opcodeTable, w &&& r.mask = r.pattern → ∃ i, decode w = .ok i ∧ i.mnemonic = r.mnemonic) ∧
    (∀ r ∈ opcodeTable, ∀ q ∈ opcodeTable, w &&& r.mask = r.pattern → w &&& q.mask = q.pattern → r = q)

/-- The unused encodings of 30_encoding.md section 4 (the list under the opcode map) and section 5: a step of such a word
answers `IllegalInstruction` with the `pc` and the word (D2, D26). -/
def Obligations.UnusedEncodingsFaultAsIllegal : Prop :=
  ∀ (s : State) (st : Statement), fetchStatement s = some st →
    let w := st.code
    let op := w.extractLsb' 0 7
    let funct3 := w.extractLsb' 12 3
    let funct7 := w.extractLsb' 25 7
    (w.extractLsb' 0 2 ≠ 0b11#2 ∨ w = 0x00000000#32 ∨ w = 0xFFFFFFFF#32 ∨
      (op = 0b0000011#7 ∧ (funct3 = 0b011#3 ∨ funct3 = 0b110#3 ∨ funct3 = 0b111#3)) ∨
      (op = 0b0100011#7 ∧ 3 ≤ funct3.toNat) ∨
      (op = 0b1100011#7 ∧ (funct3 = 0b010#3 ∨ funct3 = 0b011#3)) ∨
      (op = 0b1100111#7 ∧ funct3 ≠ 0b000#3) ∨
      (op = 0b0001111#7 ∧ funct3 ≠ 0b000#3) ∨
      (op = 0b0110011#7 ∧ funct7 ≠ 0b0000000#7 ∧
        ¬ (funct7 = 0b0100000#7 ∧ (funct3 = 0b000#3 ∨ funct3 = 0b101#3))) ∨
      (op = 0b1010011#7 ∧ w &&& 0xFFF0707F#32 ≠ 0xE0000053#32 ∧ w &&& 0xFFF0707F#32 ≠ 0xF0000053#32) ∨
      (op = 0b1110011#7 ∧ w ≠ 0x00000073#32 ∧ w ≠ 0x00100073#32) ∨
      op ∉ [0b0000011#7, 0b0001111#7, 0b0010011#7, 0b0010111#7, 0b0100011#7, 0b0110011#7, 0b0110111#7, 0b1010011#7,
        0b1100011#7, 0b1100111#7, 0b1101111#7, 0b1110011#7]) →
    step s = .fault (.illegalInstruction s.pc w)

-- The step.

/-- 60_exceptions.md section 1 (rule R181) and section 2 (rule R185): fetch, decode, execute. The statement that runs is the one
of the program at `pc`; the fetch tests nothing but that there is one. That its bits alone select the instruction, in a program
that is not validly linked too, is the spec's decision D4 (log entry 13). -/
def Obligations.StepRunsTheDecodedInstruction : Prop :=
  ∀ s : State,
    ((∀ st ∈ s.params.program, st.address ≠ s.pc) → step s = .fault (.fetchFault s.pc)) ∧
    (∀ st ∈ s.params.program, st.address = s.pc → s.params.program.Pairwise (fun a b => a.address ≠ b.address) →
      (∀ e, decode st.code = .error e → step s = .fault (.illegalInstruction s.pc st.code)) ∧
      (∀ i, decode st.code = .ok i → step s = exec i s))

/-- `Step` is total (60_exceptions.md section 1; 70_reset_and_hazards.md section 3, a derived rule): it answers a next state or
one of the six faults and never refuses; a fault, and a report to the host, carry the `pc` of the instruction
(60_exceptions.md section 2, D20). -/
def Obligations.StepIsTotalAndOutcomesCarryThePc : Prop :=
  ∀ s : State,
    (∀ r, step s ≠ .refused r) ∧ (∀ e, step s = .fault e → faultPc e = s.pc) ∧
    (∀ t, step s = .next t → t.report ≠ .idle ∧
      (∀ pc, t.report = .envCall pc → pc = s.pc) ∧ (∀ pc, t.report = .brk pc → pc = s.pc))

/-- A validly linked program (the premise of 30_encoding.md section 4, D4) never ends a step as an illegal instruction
(60_exceptions.md section 2: it "must not occur for a validly linked program"). -/
def Obligations.LinkedProgramsHaveNoIllegalInstruction : Prop :=
  ∀ (s : State) (pc w : Word), programWf s.params → step s ≠ .fault (.illegalInstruction pc w)

/-- 10_state.md section 2 and 20_memory.md section 4 (D13): in a linked program, a `pc` that is no multiple of 4 ends the step
with `FetchFault`, whatever jump or branch left it there. -/
def Obligations.MisalignedPcIsAFetchFault : Prop :=
  ∀ s : State, programWf s.params → s.pc.toNat % 4 ≠ 0 → step s = .fault (.fetchFault s.pc)

/-- 10_state.md section 2: a next state has `pc` advanced by 4, except after a branch, a jump, `ecall` and `ebreak`; the last
two leave it. -/
def Obligations.PcAdvancesByFourUnlessTransferred : Prop :=
  ∀ (s t : State) (i : Instr), fetchInstr s = .ok i → step s = .next t →
    (isTransfer i = false → t.pc = s.pc + 4) ∧ (i = .ecall ∨ i = .ebreak → t.pc = s.pc)

-- The register files.

/-- 10_state.md rules R14 and R15: a write to `x[r]` is what `x[r]` reads from then on, nothing else changes, and `x[0]` reads
0 and discards writes. A register that nothing has written since reset reads its reset value. -/
def Obligations.IntegerRegisterFileLaws : Prop :=
  ∀ (s : State) (r q : XReg) (v : Word),
    (s.writeX r v).readX q = (if q = 0 then 0 else if q = r then v else s.readX q) ∧
    s.writeX 0 v = s ∧
    (s.writeX r v).pc = s.pc ∧ (s.writeX r v).f = s.f ∧ (s.writeX r v).mem = s.mem ∧
    (∀ (p : Params) (k : Nat) (h : k < 31), (State.ofParams p).readX (BitVec.ofNat 5 (k + 1)) = p.xregInit[k])

/-- 10_state.md section 3 (D21): a write to `f[r]`, `f[0]` included, is read back bit for bit; no other register changes, and
the two files do not alias. -/
def Obligations.FloatRegisterFileLaws : Prop :=
  ∀ (s : State) (r q : FReg) (v : Word),
    (s.writeF r v).readF q = (if q = r then v else s.readF q) ∧
    (∀ x, (s.writeF r v).readX x = s.readX x) ∧ (∀ x, (s.writeX x v).readF q = s.readF q)

-- Register-register instructions.

/-- 40_r_type.md sections 1 and 3, `add sub xor or and` (operations and encodings are general knowledge, G3 and G6, adopted by
D2): each word decodes, and the instruction completes from every state with its result and nothing else changed. -/
def Obligations.RegisterArithmeticAndLogic : Prop :=
  ∀ (s : State) (rd rs1 rs2 : XReg),
    let a := s.readX rs1
    let b := s.readX rs2
    (decode (0b0000000#7 ++ rs2 ++ rs1 ++ 0b000#3 ++ rd ++ 0b0110011#7) = .ok (.add rd rs1 rs2) ∧
      CompletesWithX (.add rd rs1 rs2) s rd fun v => v.toNat = (a.toNat + b.toNat) % 2 ^ 32) ∧
    (decode (0b0100000#7 ++ rs2 ++ rs1 ++ 0b000#3 ++ rd ++ 0b0110011#7) = .ok (.sub rd rs1 rs2) ∧
      CompletesWithX (.sub rd rs1 rs2) s rd fun v => (v.toNat : Int) = ((a.toNat : Int) - b.toNat) % 2 ^ 32) ∧
    (decode (0b0000000#7 ++ rs2 ++ rs1 ++ 0b100#3 ++ rd ++ 0b0110011#7) = .ok (.xor rd rs1 rs2) ∧
      CompletesWithX (.xor rd rs1 rs2) s rd fun v => ∀ k < 32, v.getLsbD k = (a.getLsbD k ^^ b.getLsbD k)) ∧
    (decode (0b0000000#7 ++ rs2 ++ rs1 ++ 0b110#3 ++ rd ++ 0b0110011#7) = .ok (.or rd rs1 rs2) ∧
      CompletesWithX (.or rd rs1 rs2) s rd fun v => ∀ k < 32, v.getLsbD k = (a.getLsbD k || b.getLsbD k)) ∧
    (decode (0b0000000#7 ++ rs2 ++ rs1 ++ 0b111#3 ++ rd ++ 0b0110011#7) = .ok (.and rd rs1 rs2) ∧
      CompletesWithX (.and rd rs1 rs2) s rd fun v => ∀ k < 32, v.getLsbD k = (a.getLsbD k && b.getLsbD k))

/-- 40_r_type.md sections 2 and 3, `sll srl sra`: the amount is `x[rs2] mod 32` (general knowledge, G7). -/
def Obligations.RegisterShifts : Prop :=
  ∀ (s : State) (rd rs1 rs2 : XReg),
    let a := s.readX rs1
    let n := (s.readX rs2).toNat % 32
    (decode (0b0000000#7 ++ rs2 ++ rs1 ++ 0b001#3 ++ rd ++ 0b0110011#7) = .ok (.sll rd rs1 rs2) ∧
      CompletesWithX (.sll rd rs1 rs2) s rd fun v => v.toNat = a.toNat * 2 ^ n % 2 ^ 32) ∧
    (decode (0b0000000#7 ++ rs2 ++ rs1 ++ 0b101#3 ++ rd ++ 0b0110011#7) = .ok (.srl rd rs1 rs2) ∧
      CompletesWithX (.srl rd rs1 rs2) s rd fun v => v.toNat = a.toNat / 2 ^ n) ∧
    (decode (0b0100000#7 ++ rs2 ++ rs1 ++ 0b101#3 ++ rd ++ 0b0110011#7) = .ok (.sra rd rs1 rs2) ∧
      CompletesWithX (.sra rd rs1 rs2) s rd fun v => v.toInt = a.toInt / 2 ^ n)

/-- 40_r_type.md section 3, `slt sltu` (general knowledge, G6): a 32-bit 0 or 1, by the signed and the unsigned order. -/
def Obligations.RegisterComparisons : Prop :=
  ∀ (s : State) (rd rs1 rs2 : XReg),
    let a := s.readX rs1
    let b := s.readX rs2
    (decode (0b0000000#7 ++ rs2 ++ rs1 ++ 0b010#3 ++ rd ++ 0b0110011#7) = .ok (.slt rd rs1 rs2) ∧
      CompletesWithX (.slt rd rs1 rs2) s rd fun v => v = if a.toInt < b.toInt then 1 else 0) ∧
    (decode (0b0000000#7 ++ rs2 ++ rs1 ++ 0b011#3 ++ rd ++ 0b0110011#7) = .ok (.sltu rd rs1 rs2) ∧
      CompletesWithX (.sltu rd rs1 rs2) s rd fun v => v = if a.toNat < b.toNat then 1 else 0)

-- Register-immediate and shift-immediate instructions.

/-- 41_i_type.md section 1, `addi xori ori` (general knowledge, G6): the immediate stands for its 12-bit signed value, so its
bit 11 stands in every higher place. -/
def Obligations.ImmediateArithmeticAndLogic : Prop :=
  ∀ (s : State) (rd rs1 : XReg) (imm : BitVec 12),
    let a := s.readX rs1
    (decode (imm ++ rs1 ++ 0b000#3 ++ rd ++ 0b0010011#7) = .ok (.addi rd rs1 imm) ∧
      CompletesWithX (.addi rd rs1 imm) s rd fun v => (v.toNat : Int) = ((a.toNat : Int) + imm.toInt) % 2 ^ 32) ∧
    (decode (imm ++ rs1 ++ 0b100#3 ++ rd ++ 0b0010011#7) = .ok (.xori rd rs1 imm) ∧
      CompletesWithX (.xori rd rs1 imm) s rd fun v =>
        ∀ k < 32, v.getLsbD k = (a.getLsbD k ^^ imm.getLsbD (min k 11))) ∧
    (decode (imm ++ rs1 ++ 0b110#3 ++ rd ++ 0b0010011#7) = .ok (.ori rd rs1 imm) ∧
      CompletesWithX (.ori rd rs1 imm) s rd fun v =>
        ∀ k < 32, v.getLsbD k = (a.getLsbD k || imm.getLsbD (min k 11)))

/-- 41_i_type.md section 1 (rule R111), `andi`: the result is exactly `x[rs1]` and the sign-extended immediate, bit by bit; with
`rs1 = x0` it is 0 for every immediate. The bit positions of the word are general knowledge (D3, G1, G3; log entry 10). -/
def Obligations.AndImmediateIsBitwiseAndExactly : Prop :=
  ∀ (s : State) (rd rs1 : XReg) (imm : BitVec 12),
    decode (imm ++ rs1 ++ 0b111#3 ++ rd ++ 0b0010011#7) = .ok (.andi rd rs1 imm) ∧
    (CompletesWithX (.andi rd rs1 imm) s rd fun v =>
      ∀ k < 32, v.getLsbD k = ((s.readX rs1).getLsbD k && imm.getLsbD (min k 11))) ∧
    CompletesWithX (.andi rd 0 imm) s rd fun v => v = 0

/-- 41_i_type.md section 1, `slti sltiu` (general knowledge, G6): `sltiu` sign-extends its immediate and then compares
unsigned. -/
def Obligations.ImmediateComparisons : Prop :=
  ∀ (s : State) (rd rs1 : XReg) (imm : BitVec 12),
    let a := s.readX rs1
    (decode (imm ++ rs1 ++ 0b010#3 ++ rd ++ 0b0010011#7) = .ok (.slti rd rs1 imm) ∧
      CompletesWithX (.slti rd rs1 imm) s rd fun v => v = if a.toInt < imm.toInt then 1 else 0) ∧
    (decode (imm ++ rs1 ++ 0b011#3 ++ rd ++ 0b0010011#7) = .ok (.sltiu rd rs1 imm) ∧
      CompletesWithX (.sltiu rd rs1 imm) s rd fun v => v = if (a.toNat : Int) < imm.toInt % 2 ^ 32 then 1 else 0)

/-- 41_i_type.md section 2 (rule R113), `slli`: the amount is the low 5 bits of the immediate; `inst[31:25]` is ignored, whatever
it holds. The bit positions of the word are general knowledge (D3, G1, G3; log entry 10); that the ignored bits stay in the term
is log entry 12. -/
def Obligations.ShiftLeftImmediateMasksToFiveBits : Prop :=
  ∀ (s : State) (rd rs1 : XReg) (hi : BitVec 7) (shamt : BitVec 5),
    decode (hi ++ shamt ++ rs1 ++ 0b001#3 ++ rd ++ 0b0010011#7) = .ok (.slli rd rs1 (hi ++ shamt)) ∧
    CompletesWithX (.slli rd rs1 (hi ++ shamt)) s rd fun v =>
      v.toNat = (s.readX rs1).toNat * 2 ^ shamt.toNat % 2 ^ 32

/-- 41_i_type.md section 2, `srli srai`: `inst[30]` alone tells the two apart (general knowledge, G18; D5), the other upper
bits are ignored, and the amount is the low 5 bits of the immediate. -/
def Obligations.ShiftRightImmediates : Prop :=
  ∀ (s : State) (rd rs1 : XReg) (b31 : BitVec 1) (b29 : BitVec 5) (shamt : BitVec 5),
    (decode (b31 ++ 0b0#1 ++ b29 ++ shamt ++ rs1 ++ 0b101#3 ++ rd ++ 0b0010011#7) =
        .ok (.srli rd rs1 (b31 ++ 0b0#1 ++ b29 ++ shamt)) ∧
      CompletesWithX (.srli rd rs1 (b31 ++ 0b0#1 ++ b29 ++ shamt)) s rd fun v =>
        v.toNat = (s.readX rs1).toNat / 2 ^ shamt.toNat) ∧
    (decode (b31 ++ 0b1#1 ++ b29 ++ shamt ++ rs1 ++ 0b101#3 ++ rd ++ 0b0010011#7) =
        .ok (.srai rd rs1 (b31 ++ 0b1#1 ++ b29 ++ shamt)) ∧
      CompletesWithX (.srai rd rs1 (b31 ++ 0b1#1 ++ b29 ++ shamt)) s rd fun v =>
        v.toInt = (s.readX rs1).toInt / 2 ^ shamt.toNat)

-- Loads and stores.

/-- 41_i_type.md section 3, `lb lh lw lbu lhu` (address and mnemonics are general knowledge, G8 and G11; the byte order is D6):
an admitted, aligned load completes; it writes the bytes at the effective address, the lowest address the least significant,
extended as the instruction says; with `rd = x0` too (D23). -/
def Obligations.LoadsReadTheirBytes : Prop :=
  ∀ (s : State) (rd rs1 : XReg) (imm : BitVec 12),
    let a := effectiveAddr s rs1 imm
    let b0 := byteAt s a
    let b1 := byteAt s (a + 1)
    let b2 := byteAt s (a + 2)
    let b3 := byteAt s (a + 3)
    (a.toNat : Int) = ((s.readX rs1).toNat + imm.toInt) % 2 ^ 32 ∧
    decode (imm ++ rs1 ++ 0b000#3 ++ rd ++ 0b0000011#7) = .ok (.lb rd rs1 imm) ∧
    decode (imm ++ rs1 ++ 0b001#3 ++ rd ++ 0b0000011#7) = .ok (.lh rd rs1 imm) ∧
    decode (imm ++ rs1 ++ 0b010#3 ++ rd ++ 0b0000011#7) = .ok (.lw rd rs1 imm) ∧
    decode (imm ++ rs1 ++ 0b100#3 ++ rd ++ 0b0000011#7) = .ok (.lbu rd rs1 imm) ∧
    decode (imm ++ rs1 ++ 0b101#3 ++ rd ++ 0b0000011#7) = .ok (.lhu rd rs1 imm) ∧
    (LoadAdmitted s a .byte → CompletesLoad (.lb rd rs1 imm) s rd a fun v => v.toInt = b0.toInt) ∧
    (LoadAdmitted s a .half → CompletesLoad (.lh rd rs1 imm) s rd a fun v => v.toInt = b1.toInt * 256 + b0.toNat) ∧
    (LoadAdmitted s a .word → CompletesLoad (.lw rd rs1 imm) s rd a fun v =>
      v.toNat = b3.toNat * 2 ^ 24 + b2.toNat * 2 ^ 16 + b1.toNat * 2 ^ 8 + b0.toNat) ∧
    (LoadAdmitted s a .byte → CompletesLoad (.lbu rd rs1 imm) s rd a fun v => v.toNat = b0.toNat) ∧
    (LoadAdmitted s a .half → CompletesLoad (.lhu rd rs1 imm) s rd a fun v => v.toNat = b1.toNat * 256 + b0.toNat)

/-- 60_exceptions.md section 2 (rules R187, R188): when a load faults and with what. The access fault comes whether or not the
address is aligned as well; a load from a reserved range raises no access fault, and an aligned one completes. Which regions are
shut, and that the access fault comes first, is the spec's decision (D8, D9; log entry 16); that a fault leaves the state is log
entry 9. -/
def Obligations.LoadFaults : Prop :=
  ∀ (s : State) (rd rs1 : XReg) (imm : BitVec 12),
    let a := effectiveAddr s rs1 imm
    let r := regionOf s.params a
    ((r = .unmapped ∨ (r = .text ∧ s.params.textPerm = .none)) →
      ∀ i ∈ [Instr.lb rd rs1 imm, .lh rd rs1 imm, .lw rd rs1 imm, .lbu rd rs1 imm, .lhu rd rs1 imm],
        exec i s = .fault (.loadAccessFault s.pc a)) ∧
    (¬ (r = .unmapped ∨ (r = .text ∧ s.params.textPerm = .none)) →
      (a.toNat % 2 ≠ 0 → exec (.lh rd rs1 imm) s = .fault (.loadMisaligned s.pc a) ∧
        exec (.lhu rd rs1 imm) s = .fault (.loadMisaligned s.pc a)) ∧
      (a.toNat % 4 ≠ 0 → exec (.lw rd rs1 imm) s = .fault (.loadMisaligned s.pc a)) ∧
      (∀ i ∈ [Instr.lb rd rs1 imm, .lh rd rs1 imm, .lw rd rs1 imm, .lbu rd rs1 imm, .lhu rd rs1 imm],
        exec i s ≠ .fault (.loadAccessFault s.pc a) ∧ (a.toNat % 4 = 0 → ∃ t, exec i s = .next t)))

/-- 60_exceptions.md section 1 (D22) and 20_memory.md section 3 (D8): the one warning, `ReservedRead`, comes with a load from a
reserved range, which retires; no other step emits a warning, and no step emits two. -/
def Obligations.WarningsComeFromReservedLoadsOnly : Prop :=
  ∀ (s t : State) (i : Instr), exec i s = .next t →
    reportWarnings t.report = [] ∨
    (isLoad i = true ∧ ∃ a, regionOf s.params a = .reserved ∧ t.report = .retired [.reservedRead a])

/-- 42_s_type.md sections 1 and 2, `sb sh sw` (which register is the base is general knowledge, G8; the byte order is D6): an
admitted, aligned store completes and changes the bytes at the effective address and nothing else besides `pc`. The canonical
form of memory is the model's own invariant (`StepKeepsTheInvariant`). -/
def Obligations.StoresWriteTheirBytes : Prop :=
  ∀ (s : State) (rs1 rs2 : XReg) (hi : BitVec 7) (lo : BitVec 5), Memory.wf s.mem →
    let imm : BitVec 12 := hi ++ lo
    let a := effectiveAddr s rs1 imm
    (a.toNat : Int) = ((s.readX rs1).toNat + imm.toInt) % 2 ^ 32 ∧
    decode (hi ++ rs2 ++ rs1 ++ 0b000#3 ++ lo ++ 0b0100011#7) = .ok (.sb rs1 rs2 imm) ∧
    decode (hi ++ rs2 ++ rs1 ++ 0b001#3 ++ lo ++ 0b0100011#7) = .ok (.sh rs1 rs2 imm) ∧
    decode (hi ++ rs2 ++ rs1 ++ 0b010#3 ++ lo ++ 0b0100011#7) = .ok (.sw rs1 rs2 imm) ∧
    (StoreAdmitted s a .byte → CompletesStore (.sb rs1 rs2 imm) s a .byte (s.readX rs2)) ∧
    (StoreAdmitted s a .half → CompletesStore (.sh rs1 rs2 imm) s a .half (s.readX rs2)) ∧
    (StoreAdmitted s a .word → CompletesStore (.sw rs1 rs2 imm) s a .word (s.readX rs2))

/-- 60_exceptions.md section 2 (rules R189, R190): when a store faults and with what. The access fault comes whether or not the
address is aligned as well. Which regions are shut, and that the access fault comes first, is the spec's decision (D8, D9; log
entry 16); that a fault leaves the state, memory with it, is log entry 9. -/
def Obligations.StoreFaults : Prop :=
  ∀ (s : State) (rs1 rs2 : XReg) (imm : BitVec 12),
    let a := effectiveAddr s rs1 imm
    let r := regionOf s.params a
    let shut := r = .unmapped ∨ r = .reserved ∨ (r = .text ∧ s.params.textPerm ≠ .loadStore)
    (shut → ∀ i ∈ [Instr.sb rs1 rs2 imm, .sh rs1 rs2 imm, .sw rs1 rs2 imm],
      exec i s = .fault (.storeAccessFault s.pc a)) ∧
    (¬ shut →
      (a.toNat % 2 ≠ 0 → exec (.sh rs1 rs2 imm) s = .fault (.storeMisaligned s.pc a)) ∧
      (a.toNat % 4 ≠ 0 → exec (.sw rs1 rs2 imm) s = .fault (.storeMisaligned s.pc a)))

/-- 20_memory.md section 6 (rule R49): `MemWrite(a, n, v)` that passes its check puts byte `i` of `v` at `a + i`, changes no other
byte, and has no other effect. The byte order is D6 (log entry 15); the canonical form of memory is the model's own (log
entry 4). -/
def Obligations.MemWriteWritesExactlyItsBytes : Prop :=
  ∀ (s : State) (a : Word) (n : Width) (v : BitVec n.bits), Memory.wf s.mem →
    (∀ e, checkStore s a n = .error e → memWrite s a n v = .error e) ∧
    (checkStore s a n = .ok () → ∃ t, memWrite s a n v = .ok t ∧
      (∀ k, k < widthBytes n → byteAt t (a + BitVec.ofNat 32 k) = v.extractLsb' (8 * k) 8) ∧
      (∀ b, b ∉ accessBytes a n → byteAt t b = byteAt s b) ∧
      t.x = s.x ∧ t.pc = s.pc ∧ t.f = s.f ∧ t.params = s.params ∧ t.report = s.report)

/-- 20_memory.md section 6, a derived rule: a store and then a load at the same place returns the stored bits, extended as the
load says; the half-word case is the source's own property. -/
def Obligations.StoreThenLoadRoundTrips : Prop :=
  ∀ (s : State) (rs1 rs2 rd : XReg) (imm : BitVec 12), Memory.wf s.mem → rd ≠ 0 →
    let a := effectiveAddr s rs1 imm
    let v := s.readX rs2
    (StoreAdmitted s a .byte → ∃ t, exec (.sb rs1 rs2 imm) s = .next t ∧
      (∃ u, exec (.lb rd rs1 imm) t = .next u ∧ u.readX rd = (v.setWidth 8).signExtend 32) ∧
      (∃ u, exec (.lbu rd rs1 imm) t = .next u ∧ u.readX rd = (v.setWidth 8).setWidth 32)) ∧
    (StoreAdmitted s a .half → ∃ t, exec (.sh rs1 rs2 imm) s = .next t ∧
      (∃ u, exec (.lh rd rs1 imm) t = .next u ∧ u.readX rd = (v.setWidth 16).signExtend 32) ∧
      (∃ u, exec (.lhu rd rs1 imm) t = .next u ∧ u.readX rd = (v.setWidth 16).setWidth 32)) ∧
    (StoreAdmitted s a .word → ∃ t, exec (.sw rs1 rs2 imm) s = .next t ∧
      (∃ u, exec (.lw rd rs1 imm) t = .next u ∧ u.readX rd = v))

/-- 20_memory.md section 1, a derived rule (the byte order is D6): accesses of other widths see the bytes that a word store
placed. -/
def Obligations.MixedWidthReadsSeeTheStoredBytes : Prop :=
  ∀ (m : Memory) (a : Word) (w : Word), Memory.wf m →
    let m' := writeBytes m a .word w
    readBytes m' a .word = w ∧
    readBytes m' a .byte = w.extractLsb' 0 8 ∧ readBytes m' (a + 1) .byte = w.extractLsb' 8 8 ∧
    readBytes m' (a + 2) .byte = w.extractLsb' 16 8 ∧ readBytes m' (a + 3) .byte = w.extractLsb' 24 8 ∧
    readBytes m' a .half = w.extractLsb' 0 16 ∧ readBytes m' (a + 2) .half = w.extractLsb' 16 16

/-- 20_memory.md section 5, a derived rule: under a legal layout an aligned access lies in one region and does not wrap. -/
def Obligations.AlignedAccessesStayInOneRegion : Prop :=
  ∀ (p : Params) (a : Word) (n : Width) (k : Nat), layoutWf p → a.toNat % widthBytes n = 0 → k < widthBytes n →
    regionOf p (a + BitVec.ofNat 32 k) = regionOf p a ∧ (a + BitVec.ofNat 32 k).toNat = a.toNat + k

/-- The canonical form (the model's own, log entry 4): whether memory is stored sparsely is not observable (10_state.md
section 5), and two memories in canonical form that read alike everywhere are equal data. -/
def Obligations.CanonicalMemoriesThatReadAlikeAreEqual : Prop :=
  ∀ m m' : Memory, Memory.wf m → Memory.wf m' → (∀ a : Word, readByte m a = readByte m' a) → m = m'

-- Control transfer.

/-- 43_b_type.md section 2 (rule R150), `bltu`: taken exactly when `x[rs1]` is below `x[rs2]` unsigned. The scattering of the
offset is general knowledge (G2, G3; log entry 10); that the target wraps and is not checked is D13 (log entry 18). -/
def Obligations.BranchIfLessUnsigned : Prop :=
  ∀ (s : State) (rs1 rs2 : XReg) (b12 b11 : BitVec 1) (b10 : BitVec 6) (b4 : BitVec 4),
    let off : BitVec 13 := b12 ++ b11 ++ b10 ++ b4 ++ 0b0#1
    decode (b12 ++ b10 ++ rs2 ++ rs1 ++ 0b110#3 ++ b4 ++ b11 ++ 0b1100011#7) = .ok (.bltu rs1 rs2 off) ∧
    CompletesBranch (.bltu rs1 rs2 off) s off ((s.readX rs1).toNat < (s.readX rs2).toNat)

/-- 43_b_type.md sections 1 and 2, the other five branches (the conditions and the scattering of the offset are general
knowledge, G2 and G6; for `bge` see 90_conflicts.md C2): taken or not, a branch changes `pc` alone. -/
def Obligations.BranchesMoveThePcAlone : Prop :=
  ∀ (s : State) (rs1 rs2 : XReg) (b12 b11 : BitVec 1) (b10 : BitVec 6) (b4 : BitVec 4),
    let off : BitVec 13 := b12 ++ b11 ++ b10 ++ b4 ++ 0b0#1
    let a := s.readX rs1
    let b := s.readX rs2
    (decode (b12 ++ b10 ++ rs2 ++ rs1 ++ 0b000#3 ++ b4 ++ b11 ++ 0b1100011#7) = .ok (.beq rs1 rs2 off) ∧
      CompletesBranch (.beq rs1 rs2 off) s off (a = b)) ∧
    (decode (b12 ++ b10 ++ rs2 ++ rs1 ++ 0b001#3 ++ b4 ++ b11 ++ 0b1100011#7) = .ok (.bne rs1 rs2 off) ∧
      CompletesBranch (.bne rs1 rs2 off) s off (a ≠ b)) ∧
    (decode (b12 ++ b10 ++ rs2 ++ rs1 ++ 0b100#3 ++ b4 ++ b11 ++ 0b1100011#7) = .ok (.blt rs1 rs2 off) ∧
      CompletesBranch (.blt rs1 rs2 off) s off (a.toInt < b.toInt)) ∧
    (decode (b12 ++ b10 ++ rs2 ++ rs1 ++ 0b101#3 ++ b4 ++ b11 ++ 0b1100011#7) = .ok (.bge rs1 rs2 off) ∧
      CompletesBranch (.bge rs1 rs2 off) s off (b.toInt ≤ a.toInt)) ∧
    (decode (b12 ++ b10 ++ rs2 ++ rs1 ++ 0b111#3 ++ b4 ++ b11 ++ 0b1100011#7) = .ok (.bgeu rs1 rs2 off) ∧
      CompletesBranch (.bgeu rs1 rs2 off) s off (b.toNat ≤ a.toNat))

/-- 44_u_j_type.md, `lui auipc` (general knowledge, G2 and G6). -/
def Obligations.UpperImmediates : Prop :=
  ∀ (s : State) (rd : XReg) (imm : BitVec 20),
    (decode (imm ++ rd ++ 0b0110111#7) = .ok (.lui rd imm) ∧
      CompletesWithX (.lui rd imm) s rd fun v => v.toNat = imm.toNat * 2 ^ 12) ∧
    (decode (imm ++ rd ++ 0b0010111#7) = .ok (.auipc rd imm) ∧
      CompletesWithX (.auipc rd imm) s rd fun v => v.toNat = (s.pc.toNat + imm.toNat * 2 ^ 12) % 2 ^ 32)

/-- 44_u_j_type.md, `jal` (general knowledge, G2 and G9): the link is `pc + 4`, the target is relative to the `jal`, and nothing
is checked. -/
def Obligations.JumpAndLink : Prop :=
  ∀ (s : State) (rd : XReg) (b20 b11 : BitVec 1) (b10 : BitVec 10) (b19 : BitVec 8),
    let off : BitVec 21 := b20 ++ b19 ++ b11 ++ b10 ++ 0b0#1
    decode (b20 ++ b10 ++ b11 ++ b19 ++ rd ++ 0b1101111#7) = .ok (.jal rd off) ∧
    ∃ t target, exec (.jal rd off) s = .next t ∧ JumpsLinking s t rd target ∧
      (target.toNat : Int) = ((s.pc.toNat : Int) + off.toInt) % 2 ^ 32

/-- 41_i_type.md section 4, `jalr` (general knowledge, G9; D25): the target is the old `x[rs1]` plus the immediate with bit 0
cleared, also when `rd = rs1`; the link is `pc + 4`. -/
def Obligations.JumpAndLinkRegister : Prop :=
  ∀ (s : State) (rd rs1 : XReg) (imm : BitVec 12),
    decode (imm ++ rs1 ++ 0b000#3 ++ rd ++ 0b1100111#7) = .ok (.jalr rd rs1 imm) ∧
    ∃ t target, exec (.jalr rd rs1 imm) s = .next t ∧ JumpsLinking s t rd target ∧
      (target.toNat : Int) = ((s.readX rs1).toNat + imm.toInt) % 2 ^ 32 / 2 * 2

-- The float moves.

/-- 45_fp_move.md (rule R166), `fmv.x.w`: all 32 bits, unchanged; discarded when `rd = x0`. The encoding is general knowledge
(D3; log entry 10); that a float register holds a raw pattern is D21 (log entry 21). -/
def Obligations.MoveFloatToInteger : Prop :=
  ∀ (s : State) (rd : XReg) (fs1 : FReg),
    decode (0b11100#5 ++ 0b00#2 ++ 0b00000#5 ++ fs1 ++ 0b000#3 ++ rd ++ 0b1010011#7) = .ok (.fmvXW rd fs1) ∧
    CompletesWithX (.fmvXW rd fs1) s rd fun v => v = s.readF fs1

/-- 45_fp_move.md (rule R167), `fmv.w.x`: all 32 bits, unchanged, into any float register, `f[0]` too; a following `fmv.x.w`
gives every pattern back. The encoding and the name are general knowledge (D3; log entry 10); that a float register holds a raw
pattern is D21 (log entry 21). -/
def Obligations.MoveIntegerToFloat : Prop :=
  ∀ (s : State) (fd : FReg) (rs1 : XReg),
    decode (0b11110#5 ++ 0b00#2 ++ 0b00000#5 ++ rs1 ++ 0b000#3 ++ fd ++ 0b1010011#7) = .ok (.fmvWX fd rs1) ∧
    ∃ t, exec (.fmvWX fd rs1) s = .next t ∧ WritesF s t fd (s.readX rs1) ∧
      ∀ rd : XReg, rd ≠ 0 → ∃ u, exec (.fmvXW rd fd) t = .next u ∧ u.readX rd = s.readX rs1

/-- 10_state.md section 3: `fmv.w.x` alone writes the float file (D18 says there is no float status either). -/
def Obligations.OnlyFmvWXWritesTheFloatFile : Prop :=
  ∀ (s t : State) (i : Instr), writesFloat i = false → exec i s = .next t → SameF s t

/-- 10_state.md section 3: `fmv.x.w` alone reads the float file. Two states that differ in the float file alone take the same
step by any other instruction: the same fault, or next states that agree on everything but the float file. -/
def Obligations.OnlyFmvXWReadsTheFloatFile : Prop :=
  ∀ (s s' : State) (i : Instr), AgreeButF s s' → readsFloat i = false →
    (∀ e, exec i s = .fault e → exec i s' = .fault e) ∧
    (∀ t, exec i s = .next t → ∃ t', exec i s' = .next t' ∧ AgreeButF t t')

-- Fence, environment call, breakpoint.

/-- 46_system.md, `fence` (D17): every word with opcode 0001111 and funct3 000 is a `fence`, and it only advances `pc`. -/
def Obligations.FenceOnlyAdvancesThePc : Prop :=
  ∀ (s : State) (imm : BitVec 12) (rs1 rd : XReg),
    decode (imm ++ rs1 ++ 0b000#3 ++ rd ++ 0b0001111#7) = .ok (.fence imm rs1 rd) ∧
    ∃ t, exec (.fence imm rs1 rd) s = .next t ∧ OnlyPc s t (s.pc + 4)

/-- 46_system.md, `ecall` (D15): the step's outcome is `EnvCall(pc)` and the state tuple is as before; that such an outcome is a
next state of this model, marked on the report port, is log entry 7. Under the default `HOST_ECALL` the run ends there,
cleanly, in that state (70_reset_and_hazards.md section 2). -/
def Obligations.EnvironmentCallReportsAndChangesNothing : Prop :=
  ∀ s : State, ∃ t, exec .ecall s = .next t ∧ OnlyReports s t (.envCall s.pc) ∧
    ∀ n, fetchInstr s = .ok .ecall → runFor exitAlways (n + 1) s = .exited t

/-- 46_system.md, `ebreak` (D16): the step's outcome is `Break(pc)` and the state tuple is as before (log entry 7), so a second
step executes the same `ebreak`; it stops a run. -/
def Obligations.BreakpointInstructionReportsAndChangesNothing : Prop :=
  ∀ s : State, ∃ t, exec .ebreak s = .next t ∧ OnlyReports s t (.brk s.pc) ∧
    (fetchInstr s = .ok .ebreak → step t = .next t ∧ ∀ host n, runFor host (n + 1) s = .broke t)

-- Whole-machine rules.

/-- The model's invariant (Safety.lean): legal parameters, memory in canonical form, every byte that no store may write at its
`MEM_INIT` value (20_memory.md section 6, D10), at most one warning. Every step keeps it, from every state that meets it. -/
def Obligations.StepKeepsTheInvariant : Prop :=
  ∀ s t : State, s.Inv → step s = .next t → t.Inv

/-- The reset state meets the invariant, under every legal choice of the parameters and under the model's own (log entries 1
to 5). -/
def Obligations.ResetMeetsTheInvariant : Prop :=
  (∀ p : Params, paramsWf p → (State.ofParams p).Inv) ∧ State.reset.Inv

/-- 10_state.md sections 5 and 8, 20_memory.md section 7, a derived rule: no step changes a parameter; in particular no store
is ever seen by an instruction fetch, whatever `TEXT_PERM` is. -/
def Obligations.StepKeepsTheParametersAndTheProgram : Prop :=
  ∀ s t : State, step s = .next t → t.params = s.params ∧
    ∀ pc, statementAt t.params.program pc = statementAt s.params.program pc

/-- 10_state.md rule R27: loads and stores are the only instructions that reach memory, and a load has no side effect on it; so
only `sb`, `sh`, `sw` change a byte, and only in a region that admits a store. -/
def Obligations.OnlyStoresChangeMemory : Prop :=
  ∀ (s t : State) (i : Instr), exec i s = .next t →
    (isStore i = false → SameMemory s t) ∧
    (layoutWf s.params → Memory.wf s.mem → ∀ a, readOnlyAt s.params a = true → byteAt t a = byteAt s a)

-- Reset.

/-- 70_reset_and_hazards.md section 1 (that the initial values are parameters is D11 and D12): reset gives every register, `pc`,
every float register and every byte its initial value and leaves the parameters. -/
def Obligations.ResetRestoresTheInitialValues : Prop :=
  ∀ s : State,
    let t := resetBlock s
    t.readX 0 = 0 ∧ (∀ (k : Nat) (h : k < 31), t.readX (BitVec.ofNat 5 (k + 1)) = s.params.xregInit[k]) ∧
    t.pc = s.params.pcInit ∧ (∀ r : FReg, t.readF r = s.params.fregInit[r.toNat]) ∧
    (∀ a, byteAt t a = readByte s.params.memInit a) ∧ t.params = s.params

/-- 70_reset_and_hazards.md section 1, derived rules: there is one initial state; whatever steps have been taken, reset gives
the state that reset would have given before them. -/
def Obligations.ResetAfterARunIsResetBeforeIt : Prop :=
  ∀ (n : Nat) (s t : State), ReachesIn n s t → resetBlock t = resetBlock s

-- The host.

/-- 60_exceptions.md section 7 (D24) and 70_reset_and_hazards.md section 2 (D15): with no breakpoint set, `continue` is the run
of the block: it ends where the run ends, in the same state, and says why. That `continue` has a bound, and the status `running`
where the bound cuts it off, is log entry 26. -/
def Obligations.ContinueWithoutBreakpointsIsTheRun : Prop :=
  ∀ (host : HostEcall) (n : Nat) (d : Session) (ms : List Message), d.bp = [] →
    let r := hostContinue host n d ms
    match runFor host n d.core with
    | .exited t => r.1.core = t ∧ r.1.status = .programExited
    | .faulted e t => r.1.core = t ∧ r.1.status = .awaitingCommand ∧ r.2.getLast? = some (.fault e)
    | .broke t => r.1.core = t ∧ r.1.status = .awaitingCommand ∧ r.2.getLast? = some (.breakInstr t.pc)
    | .unfinished t => r.1.core = t ∧ r.1.status = .running
    | .refused _ _ => False

/-- 60_exceptions.md section 7, a derived rule (the orders of the tests and of the re-arming are D24 and 90_conflicts.md C3): a
breakpoint hit during `continue` disarms it and executes nothing; the next `continue` re-arms it, passes through it and goes on. -/
def Obligations.BreakpointRetriggerProtocol : Prop :=
  ∀ (host : HostEcall) (n m : Nat) (d : Session) (st : Statement), fetchStatement d.core = some st →
    bpFlag d.bp d.core.pc = some .armed →
    let d1 := (hostContinue host (n + 1) d []).1
    d1.core = d.core ∧ d1.status = .halted d.core.pc ∧ bpFlag d1.bp d.core.pc = some .disarmed ∧
    (∀ a, a ≠ d.core.pc → bpFlag d1.bp a = bpFlag d.bp a) ∧
    ∀ t ws, step d.core = .next t → t.report = .retired ws →
      ∃ bp, bpFlag bp d.core.pc = some .armed ∧ (∀ a, a ≠ d.core.pc → bpFlag bp a = bpFlag d.bp a) ∧
        hostContinue host (m + 1) d1 [] = hostContinue host m { d1 with core := t, bp := bp } (ws.map Message.warning)

/-- 60_exceptions.md section 7 (D24): the command `step` executes the statement at `pc` whatever breakpoint is there; when it
retires, a breakpoint at the old `pc` is armed and no other changes; a fault changes neither the block nor a breakpoint. -/
def Obligations.StepCommandExecutesAndRearms : Prop :=
  ∀ (host : HostEcall) (d : Session),
    (∀ t ws, step d.core = .next t → t.report = .retired ws →
      (hostStep host d).1.core = t ∧ (hostStep host d).2 = ws.map Message.warning ∧
      (∀ a, bpFlag (hostStep host d).1.bp a =
        if a = d.core.pc ∧ (bpFlag d.bp a).isSome then some .armed else bpFlag d.bp a)) ∧
    (∀ e, step d.core = .fault e → (hostStep host d).1.core = d.core ∧ (hostStep host d).1.bp = d.bp ∧
      (hostStep host d).2 = [.fault e])

/-- 60_exceptions.md section 7, the command `breakpoint <address>`: an address that is not word-aligned, that lies outside the
text segment or that is no number is rejected and the set is unchanged; any other is inserted as armed, and one already
present keeps its flag. -/
def Obligations.BreakpointCommandInsertsOrRejects : Prop :=
  ∀ (host : HostEcall) (fuel : Nat) (d : Session) (a : Word), bpWf d.core.params d.bp →
    let r := perform host fuel (.breakpoint (some a)) d
    let text := d.core.params.segments.text
    r.1.core = d.core ∧
    (a.toNat % 4 ≠ 0 ∨ a.toNat < text.base.toNat ∨ text.limit.toNat < a.toNat → r.1.bp = d.bp ∧ r.2 = [.rejected]) ∧
    (a.toNat % 4 = 0 ∧ text.base.toNat ≤ a.toNat ∧ a.toNat ≤ text.limit.toNat →
      (∀ b, bpFlag r.1.bp b = if b = a ∧ bpFlag d.bp a = none then some .armed else bpFlag d.bp b)) ∧
    (perform host fuel (.breakpoint none) d).1.bp = d.bp

/-- 60_exceptions.md rules R207, R208 and R209: `clear` removes all breakpoints; `delete` removes one if present and warns if
absent; `list` shows the addresses and changes nothing. -/
def Obligations.ClearDeleteAndListCommands : Prop :=
  ∀ (host : HostEcall) (fuel : Nat) (d : Session) (a : Word),
    (∀ b, bpFlag (perform host fuel .clear d).1.bp b = none) ∧
    (let r := perform host fuel (.delete (some a)) d
     (∀ b, bpFlag r.1.bp b = if b = a then none else bpFlag d.bp b) ∧
      (bpFlag d.bp a = none ↔ r.2 = [.absent a]) ∧ (bpFlag d.bp a ≠ none ↔ r.2 = [])) ∧
    (let r := perform host fuel .list d
     r.1.bp = d.bp ∧ r.1.core = d.core ∧
      ∃ as, r.2 = [.breakpoints as] ∧ ∀ b, b ∈ as ↔ bpFlag d.bp b ≠ none)

/-- 60_exceptions.md rule R210: `reset` restores all registers and memory to the initial state and `pc` to `PC_INIT`;
breakpoints are preserved, flags included. -/
def Obligations.ResetCommandPreservesBreakpoints : Prop :=
  ∀ (host : HostEcall) (fuel : Nat) (d : Session),
    let r := (perform host fuel .reset d).1
    r.bp = d.bp ∧ r.core.x = d.core.params.xregInit ∧ r.core.f = d.core.params.fregInit ∧
    r.core.pc = d.core.params.pcInit ∧ r.core.mem = d.core.params.memInit ∧ r.core.params = d.core.params

/-- 10_state.md rule R34: the inspection commands `print`, `memory`, `showx`, `showf` and the symbol table dumps never mutate
the simulation state, neither the block nor the breakpoints; what `print` shows is the register. -/
def Obligations.InspectionCommandsChangeNothing : Prop :=
  ∀ (host : HostEcall) (fuel : Nat) (d : Session) (c : Command),
    (∃ r, c = .print r) ∨ (∃ a n, c = .memory a n) ∨ c = .showx ∨ c = .showf ∨ c = .globals ∨ (∃ f, c = .locals f) →
    (perform host fuel c d).1.core = d.core ∧ (perform host fuel c d).1.bp = d.bp ∧
    ∀ r, c = .print (some (.x r)) → (perform host fuel c d).2 = [.value (.x r) (d.core.readX r)]

/-- 60_exceptions.md section 7, a derived rule: the host changes the block only through `step`, `continue` and `reset` (and `!`,
which repeats a command); no command changes a parameter or a symbol table. -/
def Obligations.HostChangesTheBlockOnlyBySteppingAndReset : Prop :=
  ∀ (host : HostEcall) (fuel : Nat) (d : Session) (i : Invocation),
    (dispatch host fuel i d).1.core.params = d.core.params ∧ (dispatch host fuel i d).1.symbols = d.symbols ∧
    (i.command ≠ .step → i.command ≠ .continue → i.command ≠ .reset → i.command ≠ .again →
      (dispatch host fuel i d).1.core = d.core)

/-- 60_exceptions.md section 7 (D24): every address of the breakpoint map is in the text segment and a multiple of 4 (and the
map lists its addresses rising, the model's own form). Every command keeps this, whatever the host answers, and so does a
`continue` that its bound cut off and that goes on (log entry 26). -/
def Obligations.CommandsKeepTheBreakpointMapLegal : Prop :=
  ∀ (host : HostEcall) (fuel : Nat) (d : Session), bpWf d.core.params d.bp →
    (∀ i, bpWf (dispatch host fuel i d).1.core.params (dispatch host fuel i d).1.bp) ∧
    bpWf (resumeRun host fuel d).1.core.params (resumeRun host fuel d).1.bp

/-- 60_exceptions.md section 7, the command `!`: the preceding command again, verbatim, its extra arguments with it; `!` itself
is not recorded. That an unknown or a failed command counts as the preceding one is log entry 26. -/
def Obligations.RepeatRunsThePrecedingCommand : Prop :=
  ∀ (host : HostEcall) (fuel : Nat) (d : Session) (i : Invocation), awaitsCommand d.status = true → i.command ≠ .again →
    let d1 := (dispatch host fuel i d).1
    awaitsCommand d1.status = true → dispatch host fuel ⟨.again, false⟩ d1 = invoke host fuel i d1 ∧
      (dispatch host fuel ⟨.again, false⟩ d1).1.previous = some i

/-- 60_exceptions.md section 7, the breakpoint map at the start (D24): the declared breakpoints, all armed, and the block in its
reset state. The map is legal; that a declared address which is no legal target is not inserted is log entry 26. -/
def Obligations.SessionsStartWithTheDeclaredBreakpointsArmed : Prop :=
  ∀ (p : Params) (declared : List Word) (symbols : Symbols),
    let d := Session.start p declared symbols
    d.core = State.ofParams p ∧ bpWf d.core.params d.bp ∧
    ∀ a, bpFlag d.bp a = if a ∈ declared ∧ bpLegal p a = true then some .armed else none

/-- 60_exceptions.md section 3: `continue` is not interruptible by another command. While it runs, every command is turned away
and changes nothing; cut into two at any pass, it is the same run with the same messages (the bound on its passes, the status
`running` and the going on are log entry 26). -/
def Obligations.ContinueIsNotInterruptible : Prop :=
  ∀ (host : HostEcall) (n m : Nat) (d : Session) (ms : List Message),
    (d.status = .running → (∀ i, dispatch host n i d = (d, [])) ∧ ∀ input, takeInput host n input d = (d, [])) ∧
    (let r := hostContinue host n d ms
     (r.1.status = .running →
        hostContinue host (n + m) d ms = ((resumeRun host m r.1).1, r.2 ++ (resumeRun host m r.1).2)) ∧
     (r.1.status ≠ .running → hostContinue host (n + m) d ms = r))
end

