-- ==== Sys2Proof/Laws/Memory.lean ====
section
/-! SUPPORT. Laws/Memory.lean: the laws of the byte map: read after write, the canonical form is kept, and two memories in
canonical form that read alike are the same list. -/

namespace Sys2Proof.Machine

theorem lookup_insert (m : Memory) (k j : Nat) (v : Byte) (hm : m.Pairwise (fun c d => c.1 < d.1)) :
    lookupByte (insertByte m k v) j = if j = k then v else lookupByte m j := by
  induction m with
  | nil =>
    unfold insertByte
    split <;> simp_all [lookupByte, eq_comm]
  | cons c m ih =>
    obtain ⟨i, b⟩ := c
    have hlow : ∀ d ∈ m, i < d.1 := by simpa using (List.pairwise_cons.mp hm).1
    have htail := ih (List.pairwise_cons.mp hm).2
    have hout : ∀ n, n ≤ i → lookupByte m n = unlistedByte := by
      intro n hn
      clear htail ih hm
      induction m with
      | nil => rfl
      | cons d m ih' =>
        have hd := hlow d (by simp)
        rw [lookupByte, if_neg (by omega)]
        exact ih' fun e he => hlow e (by simp [he])
    unfold insertByte
    split
    · next hki =>
      split
      · next hv =>
        split
        · next hjk => subst hjk; rw [lookupByte, if_neg (by omega), hout j (by omega), hv]
        · rfl
      · simp only [lookupByte, eq_comm (a := k)]
    · split
      · next hki =>
        subst hki
        split
        · next hv =>
          split
          · next hjk => subst hjk; rw [hout j (by omega), hv]
          · next hjk => rw [lookupByte, if_neg (by omega)]
        · simp only [lookupByte, eq_comm (a := k)]
          split <;> rfl
      · next h1 h2 =>
        simp only [lookupByte, htail]
        split
        · next hij => rw [if_neg (by omega)]
        · rfl

theorem mem_insert (m : Memory) (k : Nat) (v : Byte) (c : Host.Cell) (hc : c ∈ insertByte m k v) :
    c ∈ m ∨ (c = (k, v) ∧ v ≠ unlistedByte) := by
  induction m with
  | nil =>
    unfold insertByte at hc
    split at hc <;> simp_all
  | cons d m ih =>
    obtain ⟨i, b⟩ := d
    unfold insertByte at hc
    split at hc
    · split at hc <;> simp_all
      tauto
    · split at hc
      · split at hc <;> simp_all
        tauto
      · rcases List.mem_cons.mp hc with h | h
        · simp [h]
        · rcases ih h with h' | h'
          · simp [h']
          · exact .inr h'

/-- A write keeps the canonical form. -/
theorem insert_wf (m : Memory) (k : Nat) (v : Byte) (hk : k < 2 ^ 32) (hm : Memory.wf m) :
    Memory.wf (insertByte m k v) := by
  refine ⟨?_, ?_, ?_⟩
  · have hs := hm.1
    clear hm
    induction m with
    | nil => unfold insertByte; split <;> simp
    | cons d m ih =>
      obtain ⟨i, b⟩ := d
      have hlow := (List.pairwise_cons.mp hs).1
      have htail := (List.pairwise_cons.mp hs).2
      unfold insertByte
      split
      · next hki =>
        split
        · exact hs
        · refine List.pairwise_cons.mpr ⟨?_, hs⟩
          intro e he
          rcases List.mem_cons.mp he with h | h
          · simpa [h] using hki
          · exact Nat.lt_trans hki (hlow e h)
      · split
        · next hki =>
          split
          · exact htail
          · refine List.pairwise_cons.mpr ⟨?_, htail⟩
            intro e he
            simpa [hki] using hlow e he
        · next h1 h2 =>
          refine List.pairwise_cons.mpr ⟨?_, ih htail⟩
          intro e he
          rcases mem_insert m k v e he with h | ⟨h, _⟩
          · exact hlow e h
          · simp only [h]; omega
  · intro c hc
    rcases mem_insert m k v c hc with h | ⟨h, hv⟩
    · exact hm.2.1 c h
    · simpa [h] using hv
  · intro c hc
    rcases mem_insert m k v c hc with h | ⟨h, _⟩
    · exact hm.2.2 c h
    · simpa [h] using hk

theorem readByte_writeByte (m : Memory) (a b : Word) (v : Byte) (hm : Memory.wf m) :
    readByte (writeByte m a v) b = if b = a then v else readByte m b := by
  unfold readByte writeByte
  rw [lookup_insert m _ _ v hm.1]
  simp only [BitVec.toNat_inj]

theorem writeByte_wf (m : Memory) (a : Word) (v : Byte) (hm : Memory.wf m) : Memory.wf (writeByte m a v) :=
  insert_wf m _ v a.isLt hm

/-- Every width of store keeps the canonical form. -/
theorem writeBytes_wf (m : Memory) (a : Word) (n : Width) (v : BitVec n.bits) (hm : Memory.wf m) :
    Memory.wf (writeBytes m a n v) := by
  cases n <;> simp only [writeBytes] <;> repeat' first | apply writeByte_wf | exact hm

/-- Byte `k` of a stored value (20_memory.md rule R49). -/
theorem readByte_writeBytes_stored (m : Memory) (a : Word) (n : Width) (v : BitVec n.bits) (k : Nat)
    (hm : Memory.wf m) (hk : k < widthBytes n) :
    readByte (writeBytes m a n v) (a + BitVec.ofNat 32 k) = v.extractLsb' (8 * k) 8 := by
  cases n with
  | byte =>
    have hk0 : k = 0 := by simp only [widthBytes] at hk; omega
    subst hk0
    rw [writeBytes, readByte_writeByte m _ _ _ hm]
    simp
  | half =>
    have hk2 : k = 0 ∨ k = 1 := by simp only [widthBytes] at hk; omega
    rw [writeBytes, readByte_writeByte _ _ _ _ (writeByte_wf _ _ _ hm), readByte_writeByte _ _ _ _ hm]
    rcases hk2 with rfl | rfl <;> simp
  | word =>
    have hk4 : k = 0 ∨ k = 1 ∨ k = 2 ∨ k = 3 := by simp only [widthBytes] at hk; omega
    have w1 := writeByte_wf m a (v.extractLsb' 0 8) hm
    have w2 := writeByte_wf _ (a + 1#32) (v.extractLsb' 8 8) w1
    have w3 := writeByte_wf _ (a + 2#32) (v.extractLsb' 16 8) w2
    rw [writeBytes, readByte_writeByte _ _ _ _ w3, readByte_writeByte _ _ _ _ w2, readByte_writeByte _ _ _ _ w1,
      readByte_writeByte _ _ _ _ hm]
    rcases hk4 with rfl | rfl | rfl | rfl <;> simp

/-- No byte outside `a .. a+n-1` changes (20_memory.md rule R49). -/
theorem readByte_writeBytes_other (m : Memory) (a b : Word) (n : Width) (v : BitVec n.bits) (hm : Memory.wf m)
    (hb : ∀ k < widthBytes n, b ≠ a + BitVec.ofNat 32 k) : readByte (writeBytes m a n v) b = readByte m b := by
  have h0 : widthBytes n > 0 → b ≠ a := fun h => by simpa using hb 0 h
  cases n with
  | byte => rw [writeBytes, readByte_writeByte _ _ _ _ hm, if_neg (h0 (by decide))]
  | half =>
    rw [writeBytes, readByte_writeByte _ _ _ _ (writeByte_wf _ _ _ hm), readByte_writeByte _ _ _ _ hm,
      if_neg (hb 1 (by decide)), if_neg (h0 (by decide))]
  | word =>
    have w1 := writeByte_wf m a (v.extractLsb' 0 8) hm
    have w2 := writeByte_wf _ (a + 1#32) (v.extractLsb' 8 8) w1
    have w3 := writeByte_wf _ (a + 2#32) (v.extractLsb' 16 8) w2
    rw [writeBytes, readByte_writeByte _ _ _ _ w3, readByte_writeByte _ _ _ _ w2, readByte_writeByte _ _ _ _ w1,
      readByte_writeByte _ _ _ _ hm, if_neg (hb 3 (by decide)), if_neg (hb 2 (by decide)), if_neg (hb 1 (by decide)),
      if_neg (h0 (by decide))]

/-- The empty memory is in canonical form. -/
theorem nil_wf : Memory.wf [] := by decide

end Sys2Proof.Machine
end

