-- ==== Sys2Proof/Laws/Operands.lean ====
section
/-! SUPPORT. Laws/Operands.lean: each operand form as a number or bit by bit (30_encoding.md rule R81, 41_i_type.md rules R112,
R120, R135), and the bytes of a loaded value as numbers. -/

namespace Sys2Proof.Machine

/-- A sign-extended immediate, as a 32-bit number, is the signed immediate modulo 2^32. -/
theorem signExtend_toNat {n : Nat} (x : BitVec n) (h : n ≤ 32) : ((x.signExtend 32).toNat : Int) = x.toInt % 2 ^ 32 := by
  have hi := BitVec.toInt_signExtend_of_le (x := x) h
  have hl := (x.signExtend 32).isLt
  have hm : x.toInt % 2 ^ 32 = ((x.signExtend 32).toNat : Int) % 2 ^ 32 := by
    rw [← hi, BitVec.toInt_eq_toNat_bmod]
    exact Int.bmod_emod
  omega

theorem signExtend12_toNat (imm : BitVec 12) : ((signExtend12 imm).toNat : Int) = imm.toInt % 2 ^ 32 :=
  signExtend_toNat imm (by decide)

theorem signExtend13_toNat (off : BitVec 13) : ((signExtend13 off).toNat : Int) = off.toInt % 2 ^ 32 :=
  signExtend_toNat off (by decide)

theorem signExtend21_toNat (off : BitVec 21) : ((signExtend21 off).toNat : Int) = off.toInt % 2 ^ 32 :=
  signExtend_toNat off (by decide)

/-- Bit 11 of the immediate stands in every higher place. -/
theorem signExtend12_getLsbD (imm : BitVec 12) (k : Nat) (h : k < 32) :
    (signExtend12 imm).getLsbD k = imm.getLsbD (min k 11) := by
  rw [signExtend12, BitVec.getLsbD_signExtend]
  simp only [h, decide_true, Bool.true_and]
  split
  · congr 1
    omega
  · rw [BitVec.msb_eq_getLsbD_last]
    congr 1
    omega

theorem signExtend12_toInt (imm : BitVec 12) : (signExtend12 imm).toInt = imm.toInt :=
  BitVec.toInt_signExtend_of_le (by decide)

theorem effectiveAddr_toNat (s : State) (rs1 : XReg) (imm : BitVec 12) :
    ((effectiveAddr s rs1 imm).toNat : Int) = ((s.readX rs1).toNat + imm.toInt) % 2 ^ 32 := by
  have h := signExtend12_toNat imm
  rw [effectiveAddr, BitVec.toNat_add]
  omega

theorem upperImm_toNat (imm : BitVec 20) : (upperImm imm).toNat = imm.toNat * 2 ^ 12 := by
  rw [show (upperImm imm).toNat = imm.toNat <<< 12 ||| 0 from BitVec.toNat_append imm 0#12]
  simp [Nat.shiftLeft_eq]

theorem shamtOfReg_toNat (b : Word) : (shamtOfReg b).toNat = b.toNat % 32 := by
  simp [shamtOfReg, BitVec.extractLsb'_toNat]

theorem shiftLeft_toNat (a : Word) (n : BitVec 5) : (shiftLeft a n).toNat = a.toNat * 2 ^ n.toNat % 2 ^ 32 := by
  simp [shiftLeft, Nat.shiftLeft_eq]

theorem shiftRightLogical_toNat (a : Word) (n : BitVec 5) : (shiftRightLogical a n).toNat = a.toNat / 2 ^ n.toNat := by
  simp [shiftRightLogical, Nat.shiftRight_eq_div_pow]

theorem shiftRightArith_toInt (a : Word) (n : BitVec 5) : (shiftRightArith a n).toInt = a.toInt / 2 ^ n.toNat := by
  simp [shiftRightArith, BitVec.toInt_sshiftRight, Int.shiftRight_eq_div_pow]

/-- `jalr`'s clearing of bit 0 (41_i_type.md rule R135). -/
theorem clearBit0_toNat (x : Word) : (x &&& 0xFFFFFFFE#32).toNat = x.toNat / 2 * 2 := by
  have hbits : ∀ j : Fin 31, (0xFFFFFFFE#32)[j.1 + 1]'(by omega) = true := by decide
  have hshift : x &&& 0xFFFFFFFE#32 = (x >>> 1) <<< 1 := by
    ext i hi
    rw [BitVec.getElem_and]
    rcases i with _ | i
    · simp
    · rw [hbits ⟨i, by omega⟩]
      simp
      simp [← BitVec.getLsbD_eq_getElem]
      congr 1
      omega
  rw [hshift]
  simp [Nat.shiftLeft_eq, Nat.shiftRight_eq_div_pow]
  omega

/-- A value with one more byte below it. -/
theorem append_byte_toNat {n : Nat} (a : BitVec n) (b : Byte) : (a ++ b).toNat = a.toNat * 256 + b.toNat := by
  rw [BitVec.toNat_append, Nat.shiftLeft_eq, Nat.mul_comm, ← Nat.two_pow_add_eq_or_of_lt b.isLt]

theorem append_byte_toInt (a b : Byte) : (a ++ b).toInt = a.toInt * 256 + b.toNat := by
  have h := append_byte_toNat a b
  have ha := a.isLt
  have hb := b.isLt
  rw [BitVec.toInt_eq_toNat_cond, BitVec.toInt_eq_toNat_cond, h]
  split <;> split <;> omega

end Sys2Proof.Machine
end

