-- ==== Sys2Proof/Laws/State.lean ====
section
/-! SUPPORT. Laws/State.lean: what each update of a state leaves in each field, and the laws of the two register files. -/

namespace Sys2Proof.Machine

-- setPc

@[simp] theorem setPc_x (s : State) (a : Word) : (s.setPc a).x = s.x := rfl
@[simp] theorem setPc_pc (s : State) (a : Word) : (s.setPc a).pc = a := rfl
@[simp] theorem setPc_f (s : State) (a : Word) : (s.setPc a).f = s.f := rfl
@[simp] theorem setPc_mem (s : State) (a : Word) : (s.setPc a).mem = s.mem := rfl
@[simp] theorem setPc_params (s : State) (a : Word) : (s.setPc a).params = s.params := rfl
@[simp] theorem setPc_report (s : State) (a : Word) : (s.setPc a).report = s.report := rfl
@[simp] theorem setPc_readX (s : State) (a : Word) (r : XReg) : (s.setPc a).readX r = s.readX r := rfl
@[simp] theorem setPc_readF (s : State) (a : Word) (r : FReg) : (s.setPc a).readF r = s.readF r := rfl

-- setReport

@[simp] theorem setReport_x (s : State) (w : Report) : (s.setReport w).x = s.x := rfl
@[simp] theorem setReport_pc (s : State) (w : Report) : (s.setReport w).pc = s.pc := rfl
@[simp] theorem setReport_f (s : State) (w : Report) : (s.setReport w).f = s.f := rfl
@[simp] theorem setReport_mem (s : State) (w : Report) : (s.setReport w).mem = s.mem := rfl
@[simp] theorem setReport_params (s : State) (w : Report) : (s.setReport w).params = s.params := rfl
@[simp] theorem setReport_report (s : State) (w : Report) : (s.setReport w).report = w := rfl
@[simp] theorem setReport_readX (s : State) (w : Report) (r : XReg) : (s.setReport w).readX r = s.readX r := rfl
@[simp] theorem setReport_readF (s : State) (w : Report) (r : FReg) : (s.setReport w).readF r = s.readF r := rfl

-- writeX

@[simp] theorem writeX_pc (s : State) (r : XReg) (v : Word) : (s.writeX r v).pc = s.pc := by
  unfold State.writeX; split <;> rfl
@[simp] theorem writeX_f (s : State) (r : XReg) (v : Word) : (s.writeX r v).f = s.f := by
  unfold State.writeX; split <;> rfl
@[simp] theorem writeX_mem (s : State) (r : XReg) (v : Word) : (s.writeX r v).mem = s.mem := by
  unfold State.writeX; split <;> rfl
@[simp] theorem writeX_params (s : State) (r : XReg) (v : Word) : (s.writeX r v).params = s.params := by
  unfold State.writeX; split <;> rfl
@[simp] theorem writeX_report (s : State) (r : XReg) (v : Word) : (s.writeX r v).report = s.report := by
  unfold State.writeX; split <;> rfl
@[simp] theorem writeX_readF (s : State) (r : XReg) (v : Word) (q : FReg) : (s.writeX r v).readF q = s.readF q := by
  unfold State.writeX; split <;> rfl

-- writeF

@[simp] theorem writeF_x (s : State) (r : FReg) (v : Word) : (s.writeF r v).x = s.x := rfl
@[simp] theorem writeF_pc (s : State) (r : FReg) (v : Word) : (s.writeF r v).pc = s.pc := rfl
@[simp] theorem writeF_mem (s : State) (r : FReg) (v : Word) : (s.writeF r v).mem = s.mem := rfl
@[simp] theorem writeF_params (s : State) (r : FReg) (v : Word) : (s.writeF r v).params = s.params := rfl
@[simp] theorem writeF_report (s : State) (r : FReg) (v : Word) : (s.writeF r v).report = s.report := rfl
@[simp] theorem writeF_readX (s : State) (r : FReg) (v : Word) (q : XReg) : (s.writeF r v).readX q = s.readX q := rfl

-- The integer file (10_state.md rules R14, R15).

theorem readX_of_toNat_zero (s : State) (r : XReg) (h : r.toNat = 0) : s.readX r = 0#32 := by
  simp [State.readX, h]

@[simp] theorem readX_zero (s : State) : s.readX 0#5 = 0#32 := readX_of_toNat_zero s _ rfl

/-- What a write leaves in the register it names. -/
theorem readX_writeX_same (s : State) (r : XReg) (v : Word) (h : r ≠ 0#5) : (s.writeX r v).readX r = v := by
  have h0 : r.toNat ≠ 0 := fun h' => h (BitVec.eq_of_toNat_eq h')
  simp [State.readX, State.writeX, h0]

/-- What a write leaves in another register. -/
theorem readX_writeX_other (s : State) (r q : XReg) (v : Word) (h : q ≠ r) : (s.writeX r v).readX q = s.readX q := by
  unfold State.writeX
  split
  · rfl
  · next hr =>
    unfold State.readX
    split
    · rfl
    · next hq =>
      have hne : r.toNat ≠ q.toNat := fun h' => h (BitVec.eq_of_toNat_eq h'.symm)
      have hne' : r.toNat - 1 ≠ q.toNat - 1 := by omega
      simp [hne']

/-- A write to `x[0]` is discarded. -/
@[simp] theorem writeX_zero (s : State) (v : Word) : s.writeX 0#5 v = s := by
  simp [State.writeX]

-- The float file (10_state.md rule R24).

theorem readF_writeF_same (s : State) (r : FReg) (v : Word) : (s.writeF r v).readF r = v := by
  simp [State.readF, State.writeF]

theorem readF_writeF_other (s : State) (r q : FReg) (v : Word) (h : q ≠ r) : (s.writeF r v).readF q = s.readF q := by
  have hne : r.toNat ≠ q.toNat := fun h' => h (BitVec.eq_of_toNat_eq h'.symm)
  simp [State.readF, State.writeF, hne]

end Sys2Proof.Machine
end

