-- ==== Sys2Proof/Laws/Ops.lean ====
section
/-! SUPPORT. Laws/Ops.lean: one lemma for each shared operation, saying everything it can do. -/

namespace Sys2Proof.Machine

-- The checks and the two primitives.

theorem checkLoad_cases (s : State) (a : Word) (n : Width) :
    (loadAllowed s.params (regionOf s.params a) = false ∧ checkLoad s a n = .error (.loadAccessFault s.pc a)) ∨
    (loadAllowed s.params (regionOf s.params a) = true ∧ a.toNat % widthBytes n ≠ 0 ∧
      checkLoad s a n = .error (.loadMisaligned s.pc a)) ∨
    (LoadAdmitted s a n ∧ ∃ ws, LoadWarnings s a ws ∧ ws.length ≤ 1 ∧ checkLoad s a n = .ok ws) := by
  unfold checkLoad LoadAdmitted LoadWarnings isAligned
  by_cases h1 : loadAllowed s.params (regionOf s.params a) = false
  · exact .inl ⟨h1, by rw [if_pos h1]⟩
  · have h1' : loadAllowed s.params (regionOf s.params a) = true := by simpa using h1
    by_cases h2 : a.toNat % widthBytes n = 0
    · refine .inr (.inr ⟨⟨h1', h2⟩, ?_⟩)
      by_cases h3 : regionOf s.params a = .reserved
      · exact ⟨[.reservedRead a], by simp [h3], by simp, by rw [if_neg h1, if_neg (by simp [h2]), if_pos h3]⟩
      · exact ⟨[], by simp [h3], by simp, by simp [h1', h2, h3]⟩
    · exact .inr (.inl ⟨h1', h2, by simp [h1', h2]⟩)

theorem checkStore_cases (s : State) (a : Word) (n : Width) :
    (storeAllowed s.params (regionOf s.params a) = false ∧ checkStore s a n = .error (.storeAccessFault s.pc a)) ∨
    (storeAllowed s.params (regionOf s.params a) = true ∧ a.toNat % widthBytes n ≠ 0 ∧
      checkStore s a n = .error (.storeMisaligned s.pc a)) ∨
    (StoreAdmitted s a n ∧ checkStore s a n = .ok ()) := by
  unfold checkStore StoreAdmitted isAligned
  by_cases h1 : storeAllowed s.params (regionOf s.params a) = false
  · exact .inl ⟨h1, by rw [if_pos h1]⟩
  · have h1' : storeAllowed s.params (regionOf s.params a) = true := by simpa using h1
    by_cases h2 : a.toNat % widthBytes n = 0
    · exact .inr (.inr ⟨⟨h1', h2⟩, by simp [h1', h2]⟩)
    · exact .inr (.inl ⟨h1', h2, by simp [h1', h2]⟩)

theorem memRead_admitted {s : State} {a : Word} {n : Width} (h : LoadAdmitted s a n) :
    ∃ ws, LoadWarnings s a ws ∧ ws.length ≤ 1 ∧ memRead s a n = .ok (readBytes s.mem a n, ws) := by
  rcases checkLoad_cases s a n with ⟨h1, _⟩ | ⟨_, h2, _⟩ | ⟨_, ws, hw, hl, h3⟩
  · exact absurd (h1.symm.trans h.1) (by decide)
  · exact absurd h.2 h2
  · exact ⟨ws, hw, hl, by rw [memRead, h3]⟩

theorem memWrite_admitted {s : State} {a : Word} {n : Width} (v : BitVec n.bits) (h : StoreAdmitted s a n) :
    memWrite s a n v = .ok { s with mem := writeBytes s.mem a n v } := by
  rcases checkStore_cases s a n with ⟨h1, _⟩ | ⟨_, h2, _⟩ | ⟨_, h3⟩
  · exact absurd (h1.symm.trans h.1) (by decide)
  · exact absurd h.2 h2
  · rw [memWrite, h3]

-- Retiring.

/-- What a retired state holds in each field. -/
theorem retireAt_eq (target : Word) (ws : List Warning) (s : State) :
    retireAt target ws s = .next ((s.setPc target).setReport (.retired ws)) := rfl

-- Loads and stores.

theorem loadInto_cases (n : Width) (ext : BitVec n.bits → Word) (rd rs1 : XReg) (imm : BitVec 12) (s : State) :
    let a := effectiveAddr s rs1 imm
    (loadAllowed s.params (regionOf s.params a) = false ∧ loadInto n ext rd rs1 imm s = .fault (.loadAccessFault s.pc a)) ∨
    (loadAllowed s.params (regionOf s.params a) = true ∧ a.toNat % widthBytes n ≠ 0 ∧
      loadInto n ext rd rs1 imm s = .fault (.loadMisaligned s.pc a)) ∨
    (LoadAdmitted s a n ∧ ∃ ws, LoadWarnings s a ws ∧ ws.length ≤ 1 ∧
      loadInto n ext rd rs1 imm s =
        .next (((s.writeX rd (ext (readBytes s.mem a n))).setPc (s.pc + 4#32)).setReport (.retired ws))) := by
  intro a
  rcases checkLoad_cases s a n with ⟨h1, h2⟩ | ⟨h1, h2, h3⟩ | ⟨h1, ws, hw, hl, h3⟩
  · exact .inl ⟨h1, by simp only [loadInto, memRead, raise, a] at *; rw [h2]⟩
  · exact .inr (.inl ⟨h1, h2, by simp only [loadInto, memRead, raise, a] at *; rw [h3]⟩)
  · refine .inr (.inr ⟨h1, ws, hw, hl, ?_⟩)
    simp only [loadInto, memRead, a] at *
    rw [h3]
    simp only [retireNext, retireAt_eq, writeX_pc]

theorem storeFrom_cases (n : Width) (rs1 rs2 : XReg) (imm : BitVec 12) (s : State) :
    let a := effectiveAddr s rs1 imm
    (storeAllowed s.params (regionOf s.params a) = false ∧
      storeFrom n rs1 rs2 imm s = .fault (.storeAccessFault s.pc a)) ∨
    (storeAllowed s.params (regionOf s.params a) = true ∧ a.toNat % widthBytes n ≠ 0 ∧
      storeFrom n rs1 rs2 imm s = .fault (.storeMisaligned s.pc a)) ∨
    (StoreAdmitted s a n ∧
      storeFrom n rs1 rs2 imm s =
        .next ((({ s with mem := writeBytes s.mem a n (truncateTo n (s.readX rs2)) } : State).setPc
          (s.pc + 4#32)).setReport (.retired []))) := by
  intro a
  rcases checkStore_cases s a n with ⟨h1, h2⟩ | ⟨h1, h2, h3⟩ | ⟨h1, h3⟩
  · exact .inl ⟨h1, by simp only [storeFrom, memWrite, raise, a] at *; rw [h2]⟩
  · exact .inr (.inl ⟨h1, h2, by simp only [storeFrom, memWrite, raise, a] at *; rw [h3]⟩)
  · refine .inr (.inr ⟨h1, ?_⟩)
    simp only [storeFrom, memWrite, a] at *
    rw [h3]
    simp only [retireNext, retireAt_eq]

-- The frames that statements name.

/-- Writing one register and retiring changes nothing else. -/
theorem onlyX_of_writeX (s : State) (rd : XReg) (v target : Word) (w : Report) :
    OnlyX s (((s.writeX rd v).setPc target).setReport w) rd v where
  dest h := readX_writeX_same s rd v h
  zero := readX_zero _
  others r h := readX_writeX_other s rd r v h

theorem sameF_of_writeX (s : State) (rd : XReg) (v target : Word) (w : Report) :
    SameF s (((s.writeX rd v).setPc target).setReport w) := fun r => by simp

theorem sameMemory_of_writeX (s : State) (rd : XReg) (v target : Word) (w : Report) :
    SameMemory s (((s.writeX rd v).setPc target).setReport w) := fun a => by simp [byteAt]

theorem retiredAt_of_writeX (s : State) (rd : XReg) (v target : Word) (ws : List Warning) :
    RetiredAt s (((s.writeX rd v).setPc target).setReport (.retired ws)) target ws where
  pc := rfl
  report := rfl
  params := writeX_params s rd v

/-- The common end of every instruction that computes into `x[rd]`. -/
theorem writesX_of_retireNext (s : State) (rd : XReg) (v : Word) :
    ∃ t, retireNext [] (s.writeX rd v) = .next t ∧ WritesX s t rd v := by
  refine ⟨((s.writeX rd v).setPc (s.pc + 4#32)).setReport (.retired []), ?_, ?_⟩
  · simp only [retireNext, retireAt_eq, writeX_pc]
  · exact ⟨retiredAt_of_writeX .., onlyX_of_writeX .., sameF_of_writeX _ _ _ _ _,
      sameMemory_of_writeX _ _ _ _ _⟩

/-- Setting `pc` and retiring changes nothing else. -/
theorem onlyPc_of_retireAt (s : State) (target : Word) :
    ∃ t, retireAt target [] s = .next t ∧ OnlyPc s t target :=
  ⟨_, rfl, ⟨⟨rfl, rfl, rfl⟩, fun _ => rfl, fun _ => rfl, fun _ => rfl⟩⟩

end Sys2Proof.Machine
end

