-- ==== Sys2Proof/Laws/Complete.lean ====
section
/-! SUPPORT. Laws/Complete.lean: for each shape of instruction, that it completes and with what frame: one lemma for each
shared operation of a family, over the terms of Safety.lean. -/

namespace Sys2Proof.Machine

section
variable {i : Instr} {s : State}

/-- An instruction that computes a value into `x[rd]`. -/
theorem completesWithX_of (rd : XReg) (v : Word) {P : Word → Prop} (h : exec i s = retireNext [] (s.writeX rd v)) (hp : P v) :
    CompletesWithX i s rd P := by
  obtain ⟨t, ht, hw⟩ := writesX_of_retireNext s rd v
  exact ⟨t, v, h.trans ht, hw, hp⟩

/-- A load that is admitted. -/
theorem completesLoad_of (n : Width) (ext : BitVec n.bits → Word) (rd rs1 : XReg) (imm : BitVec 12) {P : Word → Prop}
    (h : exec i s = loadInto n ext rd rs1 imm s) (ha : LoadAdmitted s (effectiveAddr s rs1 imm) n)
    (hp : P (ext (readBytes s.mem (effectiveAddr s rs1 imm) n))) : CompletesLoad i s rd (effectiveAddr s rs1 imm) P := by
  rcases loadInto_cases n ext rd rs1 imm s with ⟨h1, _⟩ | ⟨_, h2, _⟩ | ⟨_, ws, hw, _, h'⟩
  · exact absurd (h1.symm.trans ha.1) (by decide)
  · exact absurd ha.2 h2
  · exact ⟨_, _, h.trans h', ⟨⟨ws, hw, retiredAt_of_writeX ..⟩, onlyX_of_writeX .., sameF_of_writeX _ _ _ _ _,
      sameMemory_of_writeX _ _ _ _ _⟩, hp⟩

/-- Byte `k` of a store's data (20_memory.md rule R49). -/
theorem truncateTo_byte (n : Width) (v : Word) (k : Nat) (h : k < widthBytes n) :
    (truncateTo n v).extractLsb' (8 * k) 8 = v.extractLsb' (8 * k) 8 := by
  ext j hj
  simp only [truncateTo, BitVec.getElem_extractLsb', BitVec.getLsbD_setWidth]
  have hlt : 8 * k + j < n.bits := by cases n <;> simp only [widthBytes, Width.bits] at h ⊢ <;> omega
  simp [hlt]

/-- A store that is admitted. -/
theorem completesStore_of (n : Width) (rs1 rs2 : XReg) (imm : BitVec 12) (hm : Memory.wf s.mem)
    (h : exec i s = storeFrom n rs1 rs2 imm s) (ha : StoreAdmitted s (effectiveAddr s rs1 imm) n) :
    CompletesStore i s (effectiveAddr s rs1 imm) n (s.readX rs2) := by
  rcases storeFrom_cases n rs1 rs2 imm s with ⟨h1, _⟩ | ⟨_, h2, _⟩ | ⟨_, h'⟩
  · exact absurd (h1.symm.trans ha.1) (by decide)
  · exact absurd ha.2 h2
  · refine ⟨_, h.trans h', ⟨⟨rfl, rfl, rfl⟩, fun _ => rfl, fun _ => rfl, fun k hk => ?_, fun b hb => ?_⟩⟩
    · exact (readByte_writeBytes_stored _ _ _ _ k hm hk).trans (truncateTo_byte n _ k hk)
    · exact readByte_writeBytes_other _ _ _ _ _ hm fun k hk he =>
        hb (List.mem_map.2 ⟨k, List.mem_range.2 hk, he.symm⟩)

/-- A branch, by its comparison. -/
theorem completesBranch_of (c : Word → Word → Bool) (rs1 rs2 : XReg) (off : BitVec 13) {taken : Prop}
    (h : exec i s = branchIf c rs1 rs2 off s) (ht : c (s.readX rs1) (s.readX rs2) = true ↔ taken) :
    CompletesBranch i s off taken := by
  by_cases hc : c (s.readX rs1) (s.readX rs2) = true
  · obtain ⟨t, h1, h2⟩ := onlyPc_of_retireAt s (s.pc + signExtend13 off)
    refine ⟨t, _, ?_, h2, fun _ => ?_, fun hn => absurd (ht.1 hc) hn⟩
    · rw [h, branchIf, if_pos hc, h1]
    · have hx := signExtend13_toNat off
      rw [BitVec.toNat_add]
      omega
  · obtain ⟨t, h1, h2⟩ := onlyPc_of_retireAt s (s.pc + 4#32)
    refine ⟨t, _, ?_, h2, fun hn => absurd (ht.2 hn) hc, fun _ => by simp [BitVec.toNat_add]⟩
    rw [h, branchIf, if_neg hc, retireNext, h1]

/-- A jump that links. -/
theorem jumpsLinking_of_retireAt (s : State) (rd : XReg) (target : Word) :
    ∃ t, retireAt target [] (s.writeX rd (s.pc + 4#32)) = .next t ∧ JumpsLinking s t rd target :=
  ⟨_, rfl, retiredAt_of_writeX .., onlyX_of_writeX .., sameF_of_writeX _ _ _ _ _, sameMemory_of_writeX _ _ _ _ _⟩

/-- A report to the host changes the port alone. -/
theorem onlyReports_of_setReport (s : State) (r : Report) : OnlyReports s (s.setReport r) r :=
  ⟨rfl, rfl, fun _ => rfl, fun _ => rfl, fun _ => rfl, rfl⟩

end

end Sys2Proof.Machine
end

