-- ==== Sys2Proof/Laws/Step.lean ====
section
/-! SUPPORT. Laws/Step.lean: what a step can do, said once. `exec_effect` lists every next state that an instruction can
answer; `exec_outcome` says that it answers a next state or a fault with its `pc`. -/

namespace Sys2Proof.Machine

/-- Every next state that an instruction can answer, with the kind of instruction that answers it. -/
inductive Effect (i : Instr) (s : State) : State → Prop where
  /-- one integer register, `pc`, the report: everything but a store, a branch, `fence` and the float write -/
  | writeX (rd : XReg) (v target : Word) (ws : List Warning)
      (hs : isStore i = false) (hf : writesFloat i = false) (hpc : isTransfer i = false → target = s.pc + 4#32)
      (hw : ws = [] ∨ (isLoad i = true ∧ ∃ a, regionOf s.params a = .reserved ∧ ws = [.reservedRead a]))
      (he : i ≠ .ecall ∧ i ≠ .ebreak) :
      Effect i s (((s.writeX rd v).setPc target).setReport (.retired ws))
  /-- one float register: `fmv.w.x` -/
  | writeF (fd : FReg) (v : Word) (hs : isStore i = false) (hf : writesFloat i = true) :
      Effect i s (((s.writeF fd v).setPc (s.pc + 4#32)).setReport (.retired []))
  /-- the bytes of an admitted store -/
  | store (a : Word) (n : Width) (v : BitVec n.bits) (hs : isStore i = true) (hf : writesFloat i = false)
      (ha : StoreAdmitted s a n) (ht : isTransfer i = false) :
      Effect i s ((({ s with mem := writeBytes s.mem a n v } : State).setPc (s.pc + 4#32)).setReport (.retired []))
  /-- `pc` alone: the branches and `fence` -/
  | move (target : Word) (hs : isStore i = false) (hf : writesFloat i = false)
      (hpc : isTransfer i = false → target = s.pc + 4#32) (he : i ≠ .ecall ∧ i ≠ .ebreak) :
      Effect i s ((s.setPc target).setReport (.retired []))
  /-- the report alone: `ecall`, `ebreak` -/
  | report (w : Report) (hw : (i = .ecall ∧ w = .envCall s.pc) ∨ (i = .ebreak ∧ w = .brk s.pc)) :
      Effect i s (s.setReport w)

/-- What an instruction answers: a next state that `Effect` lists, or a fault that carries `pc`. -/
def Outcomes (i : Instr) (s : State) (o : Host.Outcome State Fault Refusal) : Prop :=
  (∃ t, o = .next t ∧ Effect i s t) ∨ ∃ e, o = .fault e ∧ faultPc e = s.pc ∧ ∀ pc w, e ≠ .illegalInstruction pc w

section
variable {i : Instr} {s : State}

theorem outcomes_computeX (rd : XReg) (v : Word) (hs : isStore i = false) (hf : writesFloat i = false)
    (he : i ≠ .ecall ∧ i ≠ .ebreak) : Outcomes i s (retireNext [] (s.writeX rd v)) := by
  refine .inl ⟨_, rfl, ?_⟩
  rw [writeX_pc]
  exact .writeX rd v _ [] hs hf (fun _ => rfl) (.inl rfl) he

theorem outcomes_link (rd : XReg) (v target : Word) (hs : isStore i = false) (hf : writesFloat i = false)
    (ht : isTransfer i = true) (he : i ≠ .ecall ∧ i ≠ .ebreak) : Outcomes i s (retireAt target [] (s.writeX rd v)) :=
  .inl ⟨_, rfl, .writeX rd v _ [] hs hf (fun h => absurd (h.symm.trans ht) (by decide)) (.inl rfl) he⟩

theorem outcomes_branch (c : Word → Word → Bool) (rs1 rs2 : XReg) (off : BitVec 13) (hs : isStore i = false)
    (hf : writesFloat i = false) (ht : isTransfer i = true) (he : i ≠ .ecall ∧ i ≠ .ebreak) :
    Outcomes i s (branchIf c rs1 rs2 off s) := by
  have hpc : ∀ target, isTransfer i = false → target = s.pc + 4#32 := fun _ h => absurd (h.symm.trans ht) (by decide)
  unfold branchIf
  split
  · exact .inl ⟨_, rfl, .move _ hs hf (hpc _) he⟩
  · exact .inl ⟨_, rfl, .move _ hs hf (hpc _) he⟩

theorem outcomes_load (n : Width) (ext : BitVec n.bits → Word) (rd rs1 : XReg) (imm : BitVec 12)
    (hl : isLoad i = true) (hs : isStore i = false) (hf : writesFloat i = false) (he : i ≠ .ecall ∧ i ≠ .ebreak) :
    Outcomes i s (loadInto n ext rd rs1 imm s) := by
  rcases loadInto_cases n ext rd rs1 imm s with ⟨_, h⟩ | ⟨_, _, h⟩ | ⟨_, ws, hw, _, h⟩
  · exact .inr ⟨_, h, rfl, fun _ _ => by simp⟩
  · exact .inr ⟨_, h, rfl, fun _ _ => by simp⟩
  · refine .inl ⟨_, h, .writeX _ _ _ _ hs hf (fun _ => rfl) ?_ he⟩
    by_cases hr : regionOf s.params (effectiveAddr s rs1 imm) = .reserved
    · exact .inr ⟨hl, _, hr, hw.1 hr⟩
    · exact .inl (hw.2 hr)

theorem outcomes_store (n : Width) (rs1 rs2 : XReg) (imm : BitVec 12) (hs : isStore i = true)
    (hf : writesFloat i = false) (ht : isTransfer i = false) : Outcomes i s (storeFrom n rs1 rs2 imm s) := by
  rcases storeFrom_cases n rs1 rs2 imm s with ⟨_, h⟩ | ⟨_, _, h⟩ | ⟨ha, h⟩
  · exact .inr ⟨_, h, rfl, fun _ _ => by simp⟩
  · exact .inr ⟨_, h, rfl, fun _ _ => by simp⟩
  · exact .inl ⟨_, h, .store _ n _ hs hf ha ht⟩

end

/-- Every instruction answers one of the listed outcomes. -/
theorem exec_outcomes (i : Instr) (s : State) : Outcomes i s (exec i s) := by
  cases i
  case lb => exact outcomes_load _ _ _ _ _ rfl rfl rfl (by simp)
  case lh => exact outcomes_load _ _ _ _ _ rfl rfl rfl (by simp)
  case lw => exact outcomes_load _ _ _ _ _ rfl rfl rfl (by simp)
  case lbu => exact outcomes_load _ _ _ _ _ rfl rfl rfl (by simp)
  case lhu => exact outcomes_load _ _ _ _ _ rfl rfl rfl (by simp)
  case sb => exact outcomes_store _ _ _ _ rfl rfl rfl
  case sh => exact outcomes_store _ _ _ _ rfl rfl rfl
  case sw => exact outcomes_store _ _ _ _ rfl rfl rfl
  case beq => exact outcomes_branch _ _ _ _ rfl rfl rfl (by simp)
  case bne => exact outcomes_branch _ _ _ _ rfl rfl rfl (by simp)
  case blt => exact outcomes_branch _ _ _ _ rfl rfl rfl (by simp)
  case bge => exact outcomes_branch _ _ _ _ rfl rfl rfl (by simp)
  case bltu => exact outcomes_branch _ _ _ _ rfl rfl rfl (by simp)
  case bgeu => exact outcomes_branch _ _ _ _ rfl rfl rfl (by simp)
  case jal => exact outcomes_link _ _ _ rfl rfl rfl (by simp)
  case jalr => exact outcomes_link _ _ _ rfl rfl rfl (by simp)
  case fmvWX => exact .inl ⟨_, rfl, .writeF _ _ rfl rfl⟩
  case fence => exact .inl ⟨_, rfl, .move _ rfl rfl (fun _ => rfl) (by simp)⟩
  case ecall => exact .inl ⟨_, rfl, .report _ (.inl ⟨rfl, rfl⟩)⟩
  case ebreak => exact .inl ⟨_, rfl, .report _ (.inr ⟨rfl, rfl⟩)⟩
  all_goals exact outcomes_computeX _ _ rfl rfl (by simp)

/-- Every next state of an instruction is one that `Effect` lists. -/
theorem exec_effect {i : Instr} {s t : State} (h : exec i s = .next t) : Effect i s t := by
  rcases exec_outcomes i s with ⟨t', ht, he⟩ | ⟨e, he, _⟩
  · rw [h] at ht
    injection ht with ht
    exact ht ▸ he
  · rw [h] at he
    exact absurd he (by simp)

/-- A step is the fetch's fault or the fetched instruction's outcome. -/
theorem step_cases (s : State) :
    (∃ e, fetchInstr s = .error e ∧ step s = .fault e) ∨ ∃ i, fetchInstr s = .ok i ∧ step s = exec i s := by
  unfold step
  cases h : fetchInstr s with
  | error e => exact .inl ⟨e, rfl, rfl⟩
  | ok i => exact .inr ⟨i, rfl, rfl⟩

/-- Every next state of a step comes from an instruction that was fetched. -/
theorem step_effect {s t : State} (h : step s = .next t) : ∃ i, fetchInstr s = .ok i ∧ Effect i s t := by
  rcases step_cases s with ⟨e, _, he⟩ | ⟨i, hi, he⟩
  · rw [h] at he
    exact absurd he (by simp)
  · exact ⟨i, hi, exec_effect (he ▸ h)⟩

end Sys2Proof.Machine
end

