-- ==== Sys2Proof/Laws/Debugger.lean ====
section
/-! SUPPORT. Laws/Debugger.lean: the operations of the breakpoint map, address by address, that each keeps the map legal,
what the session's lemmas need of one step, what no command changes, and the parsing of a line (60_exceptions.md section 7). -/

namespace Sys2Proof.Machine

-- The breakpoint map, address by address.

theorem bpFlag_cons (e : Word × BpFlag) (bp : BpMap) (a : Word) :
    bpFlag (e :: bp) a = if e.1 = a then some e.2 else bpFlag bp a := by
  unfold bpFlag
  by_cases h : e.1 = a <;> simp [h]

theorem bpFlag_bpSetFlag (bp : BpMap) (a b : Word) (f : BpFlag) :
    bpFlag (bpSetFlag bp a f) b = if b = a ∧ (bpFlag bp b).isSome then some f else bpFlag bp b := by
  induction bp with
  | nil => simp [bpFlag, bpSetFlag]
  | cons e bp ih =>
    rw [show bpSetFlag (e :: bp) a f = (if e.1 = a then (a, f) else e) :: bpSetFlag bp a f from rfl, bpFlag_cons,
      bpFlag_cons, ih]
    by_cases h1 : e.1 = a
    · by_cases h2 : b = a
      · subst h2; simp [h1]
      · simp [h1, h2, Ne.symm h2]
    · by_cases h2 : b = a
      · subst h2; simp [h1]
      · simp [h1, h2]

theorem bpFlag_bpRemove (bp : BpMap) (a b : Word) : bpFlag (bpRemove bp a) b = if b = a then none else bpFlag bp b := by
  induction bp with
  | nil => simp [bpRemove, bpFlag]
  | cons e bp ih =>
    unfold bpRemove at *
    by_cases h : e.1 = a
    · rw [List.filter_cons_of_neg (by simp [h]), ih, bpFlag_cons]
      by_cases hb : b = a
      · simp [hb]
      · simp [hb, h, Ne.symm hb]
    · rw [List.filter_cons_of_pos (by simp [h]), bpFlag_cons, bpFlag_cons, ih]
      by_cases hb : b = a
      · subst hb; simp [h]
      · simp [hb]

theorem bpFlag_bpInsert (bp : BpMap) (a b : Word) (h : bp.Pairwise (fun e g => e.1 < g.1)) :
    bpFlag (bpInsert bp a) b = if b = a ∧ bpFlag bp a = none then some .armed else bpFlag bp b := by
  induction bp with
  | nil => by_cases hb : b = a <;> simp [bpInsert, bpFlag, hb, eq_comm (a := a)]
  | cons e bp ih =>
    obtain ⟨h1, h2⟩ := List.pairwise_cons.1 h
    have hnone : ∀ x ≤ e.1, bpFlag bp x = none := by
      intro x hx
      simp only [bpFlag, Option.map_eq_none_iff, List.find?_eq_none, decide_eq_true_eq]
      intro g hg hgx
      have hlt := h1 g hg
      rw [hgx] at hlt
      bv_omega
    unfold bpInsert
    split
    · next hlt =>
      have hne : e.1 ≠ a := fun he => by rw [he] at hlt; bv_omega
      simp only [bpFlag_cons, if_neg hne, hnone a (by bv_omega)]
      by_cases hb : b = a
      · subst hb; simp
      · simp [hb, Ne.symm hb]
    · split
      · next h3 => simp [bpFlag_cons, h3]
      · next h3 h4 =>
        have hne : e.1 ≠ a := fun he => h4 he.symm
        simp only [bpFlag_cons, if_neg hne, ih h2]
        by_cases hb : b = a
        · subst hb; simp [hne]
        · simp [hb]

-- Each operation keeps the map legal.

theorem bpWf_bpSetFlag {p : Params} {bp : BpMap} (a : Word) (f : BpFlag) (h : bpWf p bp) : bpWf p (bpSetFlag bp a f) := by
  have key : ∀ e : Word × BpFlag, (if e.1 = a then (a, f) else e).1 = e.1 := fun e => by split <;> simp_all
  refine ⟨?_, fun e he => ?_⟩
  · rw [bpSetFlag, List.pairwise_map]
    simpa only [key] using h.1
  · obtain ⟨g, hg, rfl⟩ := List.mem_map.1 he
    rw [key]
    exact h.2 g hg

theorem bpWf_bpRemove {p : Params} {bp : BpMap} (a : Word) (h : bpWf p bp) : bpWf p (bpRemove bp a) :=
  ⟨h.1.filter _, fun e he => h.2 e (List.mem_filter.1 he).1⟩

theorem mem_bpInsert {bp : BpMap} {a : Word} {e : Word × BpFlag} (h : e ∈ bpInsert bp a) : e ∈ bp ∨ e = (a, .armed) := by
  induction bp with
  | nil => simpa [bpInsert] using h
  | cons g bp ih =>
    unfold bpInsert at h
    split at h
    · simp only [List.mem_cons] at h ⊢; tauto
    · split at h
      · exact .inl h
      · rcases List.mem_cons.1 h with h | h
        · exact .inl (by simp [h])
        · rcases ih h with h | h
          · exact .inl (by simp [h])
          · exact .inr h

theorem bpWf_bpInsert {p : Params} {bp : BpMap} {a : Word} (h : bpWf p bp) (ha : bpLegal p a = true) :
    bpWf p (bpInsert bp a) := by
  refine ⟨?_, fun e he => ?_⟩
  · have hp := h.1
    clear h
    induction bp with
    | nil => simp [bpInsert]
    | cons g bp ih =>
      obtain ⟨h1, h2⟩ := List.pairwise_cons.1 hp
      unfold bpInsert
      split
      · next hlt =>
        refine List.pairwise_cons.2 ⟨fun e he => ?_, hp⟩
        rcases List.mem_cons.1 he with rfl | he
        · exact hlt
        · have hge := h1 e he
          simp only
          bv_omega
      · split
        · exact hp
        · next h3 h4 =>
          refine List.pairwise_cons.2 ⟨fun e he => ?_, ih h2⟩
          rcases mem_bpInsert he with he | rfl
          · exact h1 e he
          · simp only
            bv_omega
  · rcases mem_bpInsert he with he | rfl
    · exact h.2 e he
    · exact ha

theorem bpWf_rearmAt {p : Params} {bp : BpMap} (a : Word) (h : bpWf p bp) : bpWf p (rearmAt bp a) := by
  unfold rearmAt
  split
  · exact bpWf_bpSetFlag a .armed h
  · exact h

-- What a session needs of one step.

theorem step_params {s t : State} (h : step s = .next t) : t.params = s.params := by
  obtain ⟨_, -, ef⟩ := step_effect h
  cases ef <;> simp

theorem step_report_ne_idle {s t : State} (h : step s = .next t) : t.report ≠ .idle := by
  obtain ⟨_, -, ef⟩ := step_effect h
  cases ef with
  | report w hw => rcases hw with ⟨_, rfl⟩ | ⟨_, rfl⟩ <;> simp
  | _ => simp

theorem step_ne_refused (s : State) (r : Refusal) : step s ≠ .refused r := by
  rcases step_cases s with ⟨_, _, h⟩ | ⟨i, _, h⟩
  · rw [h]; simp
  · rcases exec_outcomes i s with ⟨_, h', _⟩ | ⟨_, h', _⟩ <;> rw [h, h'] <;> simp

theorem step_of_fetchStatement_none {s : State} (h : fetchStatement s = none) : step s = .fault (.fetchFault s.pc) := by
  simp [step, fetchInstr, h, raise]

-- The fields of an answer.

@[simp] theorem answer_core (d : Session) (ms : List Message) : (answer d ms).1.core = d.core := rfl
@[simp] theorem answer_bp (d : Session) (ms : List Message) : (answer d ms).1.bp = d.bp := rfl
@[simp] theorem answer_previous (d : Session) (ms : List Message) : (answer d ms).1.previous = d.previous := rfl
@[simp] theorem answer_status (d : Session) (ms : List Message) : (answer d ms).1.status = .awaitingCommand := rfl
@[simp] theorem answer_symbols (d : Session) (ms : List Message) : (answer d ms).1.symbols = d.symbols := rfl
@[simp] theorem answer_messages (d : Session) (ms : List Message) : (answer d ms).2 = ms := rfl

-- What no command changes.

/-- The parts of a session that no command changes but the loop itself: the parameters, the previous command and the symbol
tables. -/
structure SameHost (d e : Session) : Prop where
  params : e.core.params = d.core.params
  previous : e.previous = d.previous
  symbols : e.symbols = d.symbols

theorem hostStep_sameHost (host : HostEcall) (d : Session) : SameHost d (hostStep host d).1 := by
  unfold hostStep
  split
  · exact ⟨rfl, rfl, rfl⟩
  · exact ⟨rfl, rfl, rfl⟩
  · next ht =>
    have hp := step_params ht
    split
    · exact ⟨hp, rfl, rfl⟩
    · split <;> exact ⟨hp, rfl, rfl⟩
    · exact ⟨hp, rfl, rfl⟩
    · exact ⟨hp, rfl, rfl⟩

theorem hostContinue_sameHost (host : HostEcall) (n : Nat) (d : Session) (ms : List Message) :
    SameHost d (hostContinue host n d ms).1 := by
  induction n generalizing d ms with
  | zero => exact ⟨rfl, rfl, rfl⟩
  | succ n ih =>
    have go : ∀ {t : State} {bp : BpMap} {ms : List Message}, t.params = d.core.params →
        SameHost d (hostContinue host n { d with core := t, bp := bp } ms).1 := fun hp =>
      ⟨(ih _ _).params.trans hp, (ih _ _).previous, (ih _ _).symbols⟩
    unfold hostContinue
    split
    · exact ⟨rfl, rfl, rfl⟩
    · split
      · exact ⟨rfl, rfl, rfl⟩
      · simp only
        split
        · exact ⟨rfl, rfl, rfl⟩
        · exact ⟨rfl, rfl, rfl⟩
        · next ht =>
          have hp := step_params ht
          split
          · exact ⟨hp, rfl, rfl⟩
          · split
            · exact ⟨hp, rfl, rfl⟩
            · exact go hp
          · exact go hp
          · exact go hp

theorem perform_sameHost (host : HostEcall) (fuel : Nat) (c : Command) (d : Session) :
    SameHost d (perform host fuel c d).1 := by
  unfold perform
  split
  case h_1 => exact hostStep_sameHost host d
  case h_2 => exact hostContinue_sameHost host fuel d []
  all_goals first | exact ⟨rfl, rfl, rfl⟩ | (split <;> exact ⟨rfl, rfl, rfl⟩)

-- The parsing of a line.

theorem withoutArgs_command (c : Command) (args : List String) : (withoutArgs c args).command = c := rfl

theorem withOneArg_command_ne_unknown {f : String → Command} (h : ∀ a, f a ≠ .unknown) (args : List String) :
    (withOneArg f args).command ≠ .unknown := by
  cases args <;> simp [withOneArg, h]

theorem memoryArgs_command_ne_unknown (args : List String) : (memoryArgs args).command ≠ .unknown := by
  unfold memoryArgs
  split <;> simp

/-- A command is unknown exactly when its token, in any case, is none of the names that `help` lists (rules R200, R212, R214). -/
theorem parseCommand_unknown_iff (first : String) (args : List String) :
    (parseCommand first args).command = .unknown ↔ lowerToken first ∉ commandNames := by
  unfold parseCommand
  split <;> simp_all [commandNames, withoutArgs_command, withOneArg_command_ne_unknown, memoryArgs_command_ne_unknown]

end Sys2Proof.Machine
end

