-- ==== Sys2Proof/Laws/Encoding.lean ====
section
/-! SUPPORT. Laws/Encoding.lean: every field of an encoded word reads back as it was put in (30_encoding.md rules R61 to
R68), and the masking of an encoded word field by field. Every format is the R format of its own slices. -/

namespace Sys2Proof.Laws

-- Slices of a concatenation.

theorem slice_low {n m : Nat} (a : BitVec n) (b : BitVec m) : (a ++ b).extractLsb' 0 m = b :=
  BitVec.extractLsb'_append_eq_right

theorem slice_high {n m : Nat} (a : BitVec n) (b : BitVec m) (k l : Nat) :
    (a ++ b).extractLsb' (m + k) l = a.extractLsb' k l := by
  ext i h
  simp [BitVec.getLsbD_append, Nat.add_assoc]

theorem slice_top {n m : Nat} (a : BitVec n) (b : BitVec m) : (a ++ b).extractLsb' m n = a :=
  BitVec.extractLsb'_append_eq_left

/-- Two adjacent slices, joined. -/
theorem join_slices {n : Nat} (a : BitVec n) (k l m : Nat) :
    a.extractLsb' (k + l) m ++ a.extractLsb' k l = a.extractLsb' k (m + l) := by
  ext i h
  simp only [BitVec.getElem_append, BitVec.getElem_extractLsb']
  split
  · rfl
  · congr 1
    omega

theorem slice_all {n : Nat} (a : BitVec n) : a.extractLsb' 0 n = a := by
  ext i h
  simp

/-- A slice of a slice. -/
theorem slice_slice {n : Nat} (a : BitVec n) (k l i m : Nat) (h : i + m ≤ l) :
    (a.extractLsb' k l).extractLsb' i m = a.extractLsb' (k + i) m := by
  ext j hj
  simp only [BitVec.getElem_extractLsb', BitVec.getLsbD_extractLsb']
  rw [decide_eq_true (by omega), Bool.true_and, Nat.add_assoc]

theorem and_append {n m : Nat} (a c : BitVec n) (b d : BitVec m) :
    (a ++ b) &&& (c ++ d) = (a &&& c) ++ (b &&& d) := by
  ext i h
  simp only [BitVec.getElem_and, BitVec.getElem_append]
  split <;> rfl

theorem append_inj {n m : Nat} {a c : BitVec n} {b d : BitVec m} (h : a ++ b = c ++ d) : a = c ∧ b = d := by
  constructor
  · rw [← slice_top a b, h, slice_top]
  · rw [← slice_low a b, h, slice_low]

-- The R format.

section
variable (f7 : BitVec 7) (rs2 rs1 : BitVec 5) (f3 : BitVec 3) (rd : BitVec 5) (op : BitVec 7)

@[simp] theorem opcode_encodeR : opcodeOf (encodeR f7 rs2 rs1 f3 rd op) = op := slice_low _ _

@[simp] theorem rd_encodeR : rdOf (encodeR f7 rs2 rs1 f3 rd op) = rd :=
  (slice_high (f7 ++ rs2 ++ rs1 ++ f3 ++ rd) op 0 5).trans (slice_low _ _)

@[simp] theorem funct3_encodeR : funct3Of (encodeR f7 rs2 rs1 f3 rd op) = f3 :=
  (slice_high (f7 ++ rs2 ++ rs1 ++ f3 ++ rd) op 5 3).trans
    ((slice_high (f7 ++ rs2 ++ rs1 ++ f3) rd 0 3).trans (slice_low _ _))

@[simp] theorem rs1_encodeR : rs1Of (encodeR f7 rs2 rs1 f3 rd op) = rs1 :=
  (slice_high (f7 ++ rs2 ++ rs1 ++ f3 ++ rd) op 8 5).trans
    ((slice_high (f7 ++ rs2 ++ rs1 ++ f3) rd 3 5).trans
      ((slice_high (f7 ++ rs2 ++ rs1) f3 0 5).trans (slice_low _ _)))

@[simp] theorem rs2_encodeR : rs2Of (encodeR f7 rs2 rs1 f3 rd op) = rs2 :=
  (slice_high (f7 ++ rs2 ++ rs1 ++ f3 ++ rd) op 13 5).trans
    ((slice_high (f7 ++ rs2 ++ rs1 ++ f3) rd 8 5).trans
      ((slice_high (f7 ++ rs2 ++ rs1) f3 5 5).trans
        ((slice_high (f7 ++ rs2) rs1 0 5).trans (slice_low _ _))))

@[simp] theorem funct7_encodeR : funct7Of (encodeR f7 rs2 rs1 f3 rd op) = f7 :=
  (slice_high (f7 ++ rs2 ++ rs1 ++ f3 ++ rd) op 18 7).trans
    ((slice_high (f7 ++ rs2 ++ rs1 ++ f3) rd 13 7).trans
      ((slice_high (f7 ++ rs2 ++ rs1) f3 10 7).trans
        ((slice_high (f7 ++ rs2) rs1 5 7).trans (slice_top _ _))))

end

/-- Every word is the R format of its own fields. -/
theorem encodeR_fields (w : Word) :
    encodeR (funct7Of w) (rs2Of w) (rs1Of w) (funct3Of w) (rdOf w) (opcodeOf w) = w := by
  unfold encodeR funct7Of rs2Of rs1Of funct3Of rdOf opcodeOf
  rw [join_slices w 20 5 7, join_slices w 15 5 12, join_slices w 12 3 17, join_slices w 7 5 20, join_slices w 0 7 25]
  exact slice_all w

/-- Two words with the same fields are the same word. -/
theorem word_ext {v w : Word} (h7 : funct7Of v = funct7Of w) (h2 : rs2Of v = rs2Of w) (h1 : rs1Of v = rs1Of w)
    (h3 : funct3Of v = funct3Of w) (hd : rdOf v = rdOf w) (ho : opcodeOf v = opcodeOf w) : v = w := by
  rw [← encodeR_fields v, ← encodeR_fields w, h7, h2, h1, h3, hd, ho]

/-- Masking goes field by field. -/
theorem encodeR_and (f7 g7 : BitVec 7) (rs2 m2 rs1 m1 : BitVec 5) (f3 g3 : BitVec 3) (rd md : BitVec 5)
    (op mo : BitVec 7) : encodeR f7 rs2 rs1 f3 rd op &&& encodeR g7 m2 m1 g3 md mo =
      encodeR (f7 &&& g7) (rs2 &&& m2) (rs1 &&& m1) (f3 &&& g3) (rd &&& md) (op &&& mo) := by
  unfold encodeR
  rw [← and_append, ← and_append, ← and_append, ← and_append, ← and_append]

-- The other formats as the R format of their slices.

/-- The immediate of the I format is `inst[31:25]` over `inst[24:20]`. -/
theorem immI_eq (w : Word) : immIOf w = funct7Of w ++ rs2Of w := (join_slices w 20 5 7).symm

theorem encodeI_eq (imm : BitVec 12) (rs1 : BitVec 5) (f3 : BitVec 3) (rd : BitVec 5) (op : BitVec 7) :
    encodeI imm rs1 f3 rd op = encodeR (imm.extractLsb' 5 7) (imm.extractLsb' 0 5) rs1 f3 rd op := by
  unfold encodeI encodeR
  rw [join_slices imm 0 5 7]
  exact congrArg (fun i : BitVec 12 => i ++ rs1 ++ f3 ++ rd ++ op) (slice_all imm).symm

theorem encodeS_eq (imm : BitVec 12) (rs2 rs1 : BitVec 5) (f3 : BitVec 3) (op : BitVec 7) :
    encodeS imm rs2 rs1 f3 op = encodeR (imm.extractLsb' 5 7) rs2 rs1 f3 (imm.extractLsb' 0 5) op := rfl

theorem append_assoc {n m k : Nat} (a : BitVec n) (b : BitVec m) (c : BitVec k) :
    a ++ b ++ c = (a ++ (b ++ c)).cast (Nat.add_assoc n m k).symm := BitVec.append_assoc

theorem encodeB_eq (off : BitVec 13) (rs2 rs1 : BitVec 5) (f3 : BitVec 3) (op : BitVec 7) :
    encodeB off rs2 rs1 f3 op = encodeR (off.extractLsb' 12 1 ++ off.extractLsb' 5 6) rs2 rs1 f3
      (off.extractLsb' 1 4 ++ off.extractLsb' 11 1) op := by
  unfold encodeB encodeR
  exact congrArg (fun v : BitVec 25 => v ++ op)
    (append_assoc (off.extractLsb' 12 1 ++ off.extractLsb' 5 6 ++ rs2 ++ rs1 ++ f3) (off.extractLsb' 1 4) (off.extractLsb' 11 1))

theorem encodeU_eq (imm : BitVec 20) (rd : BitVec 5) (op : BitVec 7) :
    encodeU imm rd op = encodeR (imm.extractLsb' 13 7) (imm.extractLsb' 8 5) (imm.extractLsb' 3 5) (imm.extractLsb' 0 3)
      rd op := by
  unfold encodeU encodeR
  rw [join_slices imm 8 5 7, join_slices imm 3 5 12, join_slices imm 0 3 17]
  exact congrArg (fun i : BitVec 20 => i ++ rd ++ op) (slice_all imm).symm

/-- The 20 immediate bits of the J format, as they stand in the word. -/
def jumpBits (off : BitVec 21) : BitVec 20 :=
  off.extractLsb' 20 1 ++ off.extractLsb' 1 10 ++ off.extractLsb' 11 1 ++ off.extractLsb' 12 8

theorem encodeJ_eq (off : BitVec 21) (rd : BitVec 5) (op : BitVec 7) : encodeJ off rd op = encodeU (jumpBits off) rd op := rfl

-- The fields of the other formats.

section
variable (imm : BitVec 12) (rs2 rs1 : BitVec 5) (f3 : BitVec 3) (rd : BitVec 5) (op : BitVec 7)

@[simp] theorem opcode_encodeI : opcodeOf (encodeI imm rs1 f3 rd op) = op := by rw [encodeI_eq, opcode_encodeR]
@[simp] theorem rd_encodeI : rdOf (encodeI imm rs1 f3 rd op) = rd := by rw [encodeI_eq, rd_encodeR]
@[simp] theorem funct3_encodeI : funct3Of (encodeI imm rs1 f3 rd op) = f3 := by rw [encodeI_eq, funct3_encodeR]
@[simp] theorem rs1_encodeI : rs1Of (encodeI imm rs1 f3 rd op) = rs1 := by rw [encodeI_eq, rs1_encodeR]
@[simp] theorem immI_encodeI : immIOf (encodeI imm rs1 f3 rd op) = imm := by
  rw [immI_eq, encodeI_eq, funct7_encodeR, rs2_encodeR]
  exact (join_slices imm 0 5 7).trans (slice_all imm)

/-- `inst[30]` is bit 10 of the I immediate (rule R82). -/
theorem bit30_eq (w : Word) : w.getLsbD 30 = (immIOf w).getLsbD 10 := by
  simp [immIOf]

@[simp] theorem bit30_encodeI : (encodeI imm rs1 f3 rd op)[30] = imm[10] := by
  rw [← BitVec.getLsbD_eq_getElem, ← BitVec.getLsbD_eq_getElem, bit30_eq, immI_encodeI]

@[simp] theorem opcode_encodeS : opcodeOf (encodeS imm rs2 rs1 f3 op) = op := by rw [encodeS_eq, opcode_encodeR]
@[simp] theorem funct3_encodeS : funct3Of (encodeS imm rs2 rs1 f3 op) = f3 := by rw [encodeS_eq, funct3_encodeR]
@[simp] theorem rs1_encodeS : rs1Of (encodeS imm rs2 rs1 f3 op) = rs1 := by rw [encodeS_eq, rs1_encodeR]
@[simp] theorem rs2_encodeS : rs2Of (encodeS imm rs2 rs1 f3 op) = rs2 := by rw [encodeS_eq, rs2_encodeR]

/-- The immediate of the S format is `inst[31:25]` over `inst[11:7]`. -/
theorem immS_eq (w : Word) : immSOf w = funct7Of w ++ rdOf w := rfl

@[simp] theorem immS_encodeS : immSOf (encodeS imm rs2 rs1 f3 op) = imm := by
  rw [immS_eq, encodeS_eq, funct7_encodeR, rd_encodeR]
  exact (join_slices imm 0 5 7).trans (slice_all imm)

end

section
variable (off : BitVec 13) (rs2 rs1 : BitVec 5) (f3 : BitVec 3) (op : BitVec 7)

@[simp] theorem opcode_encodeB : opcodeOf (encodeB off rs2 rs1 f3 op) = op := by rw [encodeB_eq, opcode_encodeR]
@[simp] theorem funct3_encodeB : funct3Of (encodeB off rs2 rs1 f3 op) = f3 := by rw [encodeB_eq, funct3_encodeR]
@[simp] theorem rs1_encodeB : rs1Of (encodeB off rs2 rs1 f3 op) = rs1 := by rw [encodeB_eq, rs1_encodeR]
@[simp] theorem rs2_encodeB : rs2Of (encodeB off rs2 rs1 f3 op) = rs2 := by rw [encodeB_eq, rs2_encodeR]

/-- The offset of the B format from the two fields that hold it. -/
theorem immB_eq (w : Word) : immBOf w = (funct7Of w).extractLsb' 6 1 ++ (rdOf w).extractLsb' 0 1 ++
    (funct7Of w).extractLsb' 0 6 ++ (rdOf w).extractLsb' 1 4 ++ 0#1 := by
  unfold immBOf funct7Of rdOf
  rw [slice_slice w 25 7 6 1 (by decide), slice_slice w 7 5 0 1 (by decide), slice_slice w 25 7 0 6 (by decide),
    slice_slice w 7 5 1 4 (by decide)]

/-- An even offset ends in the implicit 0. -/
theorem even_join {n : Nat} (a : BitVec (n + 1)) (h : evenOffset a = true) : a.extractLsb' 1 n ++ 0#1 = a := by
  have h0 : a.getLsbD 0 = false := by simpa [evenOffset] using h
  ext i hi
  simp only [BitVec.getElem_append, BitVec.getElem_extractLsb']
  split
  · next hlt =>
    have hz : i = 0 := by omega
    subst hz
    rw [BitVec.getLsbD_eq_getElem (by omega)] at h0
    refine Eq.trans (b := false) ?_ h0.symm
    simp
  · next hge => rw [← BitVec.getLsbD_eq_getElem]; congr 1; omega

@[simp] theorem immB_encodeB (h : evenOffset off = true) : immBOf (encodeB off rs2 rs1 f3 op) = off := by
  rw [immB_eq, encodeB_eq, funct7_encodeR, rd_encodeR, slice_top (off.extractLsb' 12 1) (off.extractLsb' 5 6),
    slice_low (off.extractLsb' 1 4) (off.extractLsb' 11 1), slice_low (off.extractLsb' 12 1) (off.extractLsb' 5 6),
    slice_top (off.extractLsb' 1 4) (off.extractLsb' 11 1), join_slices off 11 1 1, join_slices off 5 6 2,
    join_slices off 1 4 8]
  exact even_join off h

end

section
variable (imm : BitVec 20) (rd : BitVec 5) (op : BitVec 7)

@[simp] theorem opcode_encodeU : opcodeOf (encodeU imm rd op) = op := by rw [encodeU_eq, opcode_encodeR]
@[simp] theorem rd_encodeU : rdOf (encodeU imm rd op) = rd := by rw [encodeU_eq, rd_encodeR]
@[simp] theorem immU_encodeU : immUOf (encodeU imm rd op) = imm :=
  (slice_high (imm ++ rd) op 5 20).trans (slice_top imm rd)

end

section
variable (off : BitVec 21) (rd : BitVec 5) (op : BitVec 7)

@[simp] theorem opcode_encodeJ : opcodeOf (encodeJ off rd op) = op := by rw [encodeJ_eq, opcode_encodeU]
@[simp] theorem rd_encodeJ : rdOf (encodeJ off rd op) = rd := by rw [encodeJ_eq, rd_encodeU]

/-- The offset of the J format from the 20 bits that hold it. -/
theorem immJ_eq (w : Word) : immJOf w = (immUOf w).extractLsb' 19 1 ++ (immUOf w).extractLsb' 0 8 ++
    (immUOf w).extractLsb' 8 1 ++ (immUOf w).extractLsb' 9 10 ++ 0#1 := by
  unfold immJOf immUOf
  rw [slice_slice w 12 20 19 1 (by decide), slice_slice w 12 20 0 8 (by decide), slice_slice w 12 20 8 1 (by decide),
    slice_slice w 12 20 9 10 (by decide)]

@[simp] theorem immJ_encodeJ (h : evenOffset off = true) : immJOf (encodeJ off rd op) = off := by
  rw [immJ_eq, encodeJ_eq, immU_encodeU]
  have h1 : (jumpBits off).extractLsb' 19 1 = off.extractLsb' 20 1 :=
    (slice_high (off.extractLsb' 20 1 ++ off.extractLsb' 1 10 ++ off.extractLsb' 11 1) (off.extractLsb' 12 8) 11 1).trans
      ((slice_high (off.extractLsb' 20 1 ++ off.extractLsb' 1 10) (off.extractLsb' 11 1) 10 1).trans (slice_top _ _))
  have h2 : (jumpBits off).extractLsb' 0 8 = off.extractLsb' 12 8 := slice_low _ _
  have h3 : (jumpBits off).extractLsb' 8 1 = off.extractLsb' 11 1 :=
    (slice_high (off.extractLsb' 20 1 ++ off.extractLsb' 1 10 ++ off.extractLsb' 11 1) (off.extractLsb' 12 8) 0 1).trans
      (slice_low _ _)
  have h4 : (jumpBits off).extractLsb' 9 10 = off.extractLsb' 1 10 :=
    (slice_high (off.extractLsb' 20 1 ++ off.extractLsb' 1 10 ++ off.extractLsb' 11 1) (off.extractLsb' 12 8) 1 10).trans
      ((slice_high (off.extractLsb' 20 1 ++ off.extractLsb' 1 10) (off.extractLsb' 11 1) 0 10).trans (slice_low _ _))
  rw [h1, h2, h3, h4, join_slices off 12 8 1, join_slices off 11 1 9, join_slices off 1 10 10]
  exact even_join off h

end

-- Every word is the encoding of its own fields, in each format.

theorem encodeI_fields (w : Word) : encodeI (immIOf w) (rs1Of w) (funct3Of w) (rdOf w) (opcodeOf w) = w := by
  apply word_ext <;> rw [encodeI_eq] <;> simp [immI_eq]
  · exact slice_top _ _
  · exact slice_low _ _

theorem encodeS_fields (w : Word) : encodeS (immSOf w) (rs2Of w) (rs1Of w) (funct3Of w) (opcodeOf w) = w := by
  apply word_ext <;> rw [encodeS_eq] <;> simp [immS_eq]
  · exact slice_top _ _
  · exact slice_low _ _

theorem encodeU_fields (w : Word) : encodeU (immUOf w) (rdOf w) (opcodeOf w) = w := by
  unfold encodeU immUOf rdOf opcodeOf
  rw [join_slices w 7 5 20, join_slices w 0 7 25]
  exact slice_all w

section
variable (a : BitVec 1) (b : BitVec 1) (c : BitVec 6) (d : BitVec 4)

/-- The four parts of a branch offset read back from it. -/
theorem branch_parts :
    (a ++ b ++ c ++ d ++ 0#1).extractLsb' 12 1 = a ∧ (a ++ b ++ c ++ d ++ 0#1).extractLsb' 11 1 = b ∧
      (a ++ b ++ c ++ d ++ 0#1).extractLsb' 5 6 = c ∧ (a ++ b ++ c ++ d ++ 0#1).extractLsb' 1 4 = d :=
  ⟨(slice_high (a ++ b ++ c ++ d) 0#1 11 1).trans ((slice_high (a ++ b ++ c) d 7 1).trans
      ((slice_high (a ++ b) c 1 1).trans (slice_top a b))),
    (slice_high (a ++ b ++ c ++ d) 0#1 10 1).trans ((slice_high (a ++ b ++ c) d 6 1).trans
      ((slice_high (a ++ b) c 0 1).trans (slice_low a b))),
    (slice_high (a ++ b ++ c ++ d) 0#1 4 6).trans ((slice_high (a ++ b ++ c) d 0 6).trans (slice_low (a ++ b) c)),
    (slice_high (a ++ b ++ c ++ d) 0#1 0 4).trans (slice_low (a ++ b ++ c) d)⟩

end

theorem encodeB_fields (w : Word) : encodeB (immBOf w) (rs2Of w) (rs1Of w) (funct3Of w) (opcodeOf w) = w := by
  obtain ⟨h1, h2, h3, h4⟩ := branch_parts (w.extractLsb' 31 1) (w.extractLsb' 7 1) (w.extractLsb' 25 6) (w.extractLsb' 8 4)
  unfold immBOf
  rw [encodeB_eq]
  apply word_ext
  case h7 =>
    rw [funct7_encodeR, h1, h3]
    exact join_slices w 25 6 1
  case hd =>
    rw [rd_encodeR, h4, h2]
    exact join_slices w 7 1 4
  all_goals simp

section
variable (a : BitVec 1) (b : BitVec 8) (c : BitVec 1) (d : BitVec 10)

/-- The four parts of a jump offset read back from it. -/
theorem jump_parts :
    (a ++ b ++ c ++ d ++ 0#1).extractLsb' 20 1 = a ∧ (a ++ b ++ c ++ d ++ 0#1).extractLsb' 12 8 = b ∧
      (a ++ b ++ c ++ d ++ 0#1).extractLsb' 11 1 = c ∧ (a ++ b ++ c ++ d ++ 0#1).extractLsb' 1 10 = d :=
  ⟨(slice_high (a ++ b ++ c ++ d) 0#1 19 1).trans ((slice_high (a ++ b ++ c) d 9 1).trans
      ((slice_high (a ++ b) c 8 1).trans (slice_top a b))),
    (slice_high (a ++ b ++ c ++ d) 0#1 11 8).trans ((slice_high (a ++ b ++ c) d 1 8).trans
      ((slice_high (a ++ b) c 0 8).trans (slice_low a b))),
    (slice_high (a ++ b ++ c ++ d) 0#1 10 1).trans ((slice_high (a ++ b ++ c) d 0 1).trans (slice_low (a ++ b) c)),
    (slice_high (a ++ b ++ c ++ d) 0#1 0 10).trans (slice_low (a ++ b ++ c) d)⟩

end

theorem encodeJ_fields (w : Word) : encodeJ (immJOf w) (rdOf w) (opcodeOf w) = w := by
  obtain ⟨h1, h2, h3, h4⟩ := jump_parts (w.extractLsb' 31 1) (w.extractLsb' 12 8) (w.extractLsb' 20 1) (w.extractLsb' 21 10)
  have h : jumpBits (immJOf w) = immUOf w := by
    unfold jumpBits immJOf immUOf
    rw [h1, h2, h3, h4]
    rw [join_slices w 21 10 1, join_slices w 20 1 11, join_slices w 12 8 12]
  rw [encodeJ_eq, h, encodeU_fields]

theorem appended_zero_even {n : Nat} (a : BitVec n) : evenOffset (a ++ 0#1) = true := by
  simp [evenOffset, BitVec.getElem_append]

theorem even_immB (w : Word) : evenOffset (immBOf w) = true :=
  appended_zero_even (w.extractLsb' 31 1 ++ w.extractLsb' 7 1 ++ w.extractLsb' 25 6 ++ w.extractLsb' 8 4)

theorem even_immJ (w : Word) : evenOffset (immJOf w) = true :=
  appended_zero_even (w.extractLsb' 31 1 ++ w.extractLsb' 12 8 ++ w.extractLsb' 20 1 ++ w.extractLsb' 21 10)

end Sys2Proof.Laws
end

