-- ==== Sys2Proof/Laws/PerInstr.lean ====
section
/-! SUPPORT. Laws/PerInstr.lean: statements about every instruction, one lemma per constructor. Family `RowMatch`: the word
of a well-formed instruction passes the test of its own row of the opcode table (30_encoding.md rules R69, R70). -/

namespace Sys2Proof.Laws

theorem and_ones7 (x : BitVec 7) : x &&& 127#7 = x := BitVec.and_allOnes
theorem and_ones5 (x : BitVec 5) : x &&& 31#5 = x := BitVec.and_allOnes
theorem and_ones3 (x : BitVec 3) : x &&& 7#3 = x := BitVec.and_allOnes

theorem mask_r (f7 : BitVec 7) (rs2 rs1 : BitVec 5) (f3 : BitVec 3) (rd : BitVec 5) (op : BitVec 7) :
    encodeR f7 rs2 rs1 f3 rd op &&& 0xFE00707F#32 = encodeR f7 0 0 f3 0 op := by
  rw [show 0xFE00707F#32 = encodeR 127#7 0 0 7#3 0 127#7 by decide, encodeR_and]
  simp [and_ones7, and_ones3]

theorem mask_fp (f7 : BitVec 7) (rs2 rs1 : BitVec 5) (f3 : BitVec 3) (rd : BitVec 5) (op : BitVec 7) :
    encodeR f7 rs2 rs1 f3 rd op &&& 0xFFF0707F#32 = encodeR f7 rs2 0 f3 0 op := by
  rw [show 0xFFF0707F#32 = encodeR 127#7 31#5 0 7#3 0 127#7 by decide, encodeR_and]
  simp [and_ones7, and_ones5, and_ones3]

theorem mask_funct3 (f7 : BitVec 7) (rs2 rs1 : BitVec 5) (f3 : BitVec 3) (rd : BitVec 5) (op : BitVec 7) :
    encodeR f7 rs2 rs1 f3 rd op &&& 0x0000707F#32 = encodeR 0 0 0 f3 0 op := by
  rw [show 0x0000707F#32 = encodeR 0 0 0 7#3 0 127#7 by decide, encodeR_and]
  simp [and_ones7, and_ones3]

theorem mask_bit30 (f7 : BitVec 7) (rs2 rs1 : BitVec 5) (f3 : BitVec 3) (rd : BitVec 5) (op : BitVec 7) :
    encodeR f7 rs2 rs1 f3 rd op &&& 0x4000707F#32 = encodeR (f7 &&& 0b0100000#7) 0 0 f3 0 op := by
  rw [show 0x4000707F#32 = encodeR 0b0100000#7 0 0 7#3 0 127#7 by decide, encodeR_and]
  simp [and_ones7, and_ones3]

theorem mask_opcode (f7 : BitVec 7) (rs2 rs1 : BitVec 5) (f3 : BitVec 3) (rd : BitVec 5) (op : BitVec 7) :
    encodeR f7 rs2 rs1 f3 rd op &&& 0x0000007F#32 = encodeR 0 0 0 0 0 op := by
  rw [show 0x0000007F#32 = encodeR 0 0 0 0 0 127#7 by decide, encodeR_and]
  simp [and_ones7]

/-- `inst[30]` of the I format, masked (rule R82). -/
theorem bit30_masked (imm : BitVec 12) :
    imm.extractLsb' 5 7 &&& 0b0100000#7 = if imm.getLsbD 10 then 0b0100000#7 else 0#7 := by
  ext i h
  rw [BitVec.getElem_and, BitVec.getElem_extractLsb']
  have hi : i = 0 ∨ i = 1 ∨ i = 2 ∨ i = 3 ∨ i = 4 ∨ i = 5 ∨ i = 6 := by omega
  cases hb : imm.getLsbD 10 <;> rcases hi with rfl | rfl | rfl | rfl | rfl | rfl | rfl <;> simp_all

end Sys2Proof.Laws

namespace Sys2Proof.Laws.RowMatch

/-- The word of the instruction passes the test of the row that has its mnemonic. -/
def Statement (i : Instr) : Prop :=
  i.wf = true → ∃ r ∈ opcodeTable, r.mnemonic = i.mnemonic ∧ r.matchesWord (encode i) = true

/-- A row that is in the table and whose test the word passes. -/
theorem of_row {i : Instr} (name : String) (mask pattern : Word) (hr : ⟨name, mask, pattern⟩ ∈ opcodeTable)
    (hn : name = i.mnemonic) (h : encode i &&& mask = pattern) : ∃ r ∈ opcodeTable, r.mnemonic = i.mnemonic ∧ r.matchesWord (encode i) = true :=
  ⟨_, hr, hn, by simp [OpcodeRow.matchesWord, h]⟩

theorem add (rd : XReg) (rs1 : XReg) (rs2 : XReg) : Statement (.add rd rs1 rs2) := fun _ =>
  of_row "add" 0xFE00707F#32 0x00000033#32 (by decide) rfl (by rw [encode, mask_r]; rfl)

theorem sub (rd : XReg) (rs1 : XReg) (rs2 : XReg) : Statement (.sub rd rs1 rs2) := fun _ =>
  of_row "sub" 0xFE00707F#32 0x40000033#32 (by decide) rfl (by rw [encode, mask_r]; rfl)

theorem sll (rd : XReg) (rs1 : XReg) (rs2 : XReg) : Statement (.sll rd rs1 rs2) := fun _ =>
  of_row "sll" 0xFE00707F#32 0x00001033#32 (by decide) rfl (by rw [encode, mask_r]; rfl)

theorem slt (rd : XReg) (rs1 : XReg) (rs2 : XReg) : Statement (.slt rd rs1 rs2) := fun _ =>
  of_row "slt" 0xFE00707F#32 0x00002033#32 (by decide) rfl (by rw [encode, mask_r]; rfl)

theorem sltu (rd : XReg) (rs1 : XReg) (rs2 : XReg) : Statement (.sltu rd rs1 rs2) := fun _ =>
  of_row "sltu" 0xFE00707F#32 0x00003033#32 (by decide) rfl (by rw [encode, mask_r]; rfl)

theorem xor (rd : XReg) (rs1 : XReg) (rs2 : XReg) : Statement (.xor rd rs1 rs2) := fun _ =>
  of_row "xor" 0xFE00707F#32 0x00004033#32 (by decide) rfl (by rw [encode, mask_r]; rfl)

theorem srl (rd : XReg) (rs1 : XReg) (rs2 : XReg) : Statement (.srl rd rs1 rs2) := fun _ =>
  of_row "srl" 0xFE00707F#32 0x00005033#32 (by decide) rfl (by rw [encode, mask_r]; rfl)

theorem sra (rd : XReg) (rs1 : XReg) (rs2 : XReg) : Statement (.sra rd rs1 rs2) := fun _ =>
  of_row "sra" 0xFE00707F#32 0x40005033#32 (by decide) rfl (by rw [encode, mask_r]; rfl)

theorem or (rd : XReg) (rs1 : XReg) (rs2 : XReg) : Statement (.or rd rs1 rs2) := fun _ =>
  of_row "or" 0xFE00707F#32 0x00006033#32 (by decide) rfl (by rw [encode, mask_r]; rfl)

theorem and (rd : XReg) (rs1 : XReg) (rs2 : XReg) : Statement (.and rd rs1 rs2) := fun _ =>
  of_row "and" 0xFE00707F#32 0x00007033#32 (by decide) rfl (by rw [encode, mask_r]; rfl)

theorem addi (rd : XReg) (rs1 : XReg) (imm : BitVec 12) : Statement (.addi rd rs1 imm) := fun _ =>
  of_row "addi" 0x0000707F#32 0x00000013#32 (by decide) rfl (by rw [encode, encodeI_eq, mask_funct3]; rfl)

theorem slti (rd : XReg) (rs1 : XReg) (imm : BitVec 12) : Statement (.slti rd rs1 imm) := fun _ =>
  of_row "slti" 0x0000707F#32 0x00002013#32 (by decide) rfl (by rw [encode, encodeI_eq, mask_funct3]; rfl)

theorem sltiu (rd : XReg) (rs1 : XReg) (imm : BitVec 12) : Statement (.sltiu rd rs1 imm) := fun _ =>
  of_row "sltiu" 0x0000707F#32 0x00003013#32 (by decide) rfl (by rw [encode, encodeI_eq, mask_funct3]; rfl)

theorem xori (rd : XReg) (rs1 : XReg) (imm : BitVec 12) : Statement (.xori rd rs1 imm) := fun _ =>
  of_row "xori" 0x0000707F#32 0x00004013#32 (by decide) rfl (by rw [encode, encodeI_eq, mask_funct3]; rfl)

theorem ori (rd : XReg) (rs1 : XReg) (imm : BitVec 12) : Statement (.ori rd rs1 imm) := fun _ =>
  of_row "ori" 0x0000707F#32 0x00006013#32 (by decide) rfl (by rw [encode, encodeI_eq, mask_funct3]; rfl)

theorem andi (rd : XReg) (rs1 : XReg) (imm : BitVec 12) : Statement (.andi rd rs1 imm) := fun _ =>
  of_row "andi" 0x0000707F#32 0x00007013#32 (by decide) rfl (by rw [encode, encodeI_eq, mask_funct3]; rfl)

theorem slli (rd : XReg) (rs1 : XReg) (imm : BitVec 12) : Statement (.slli rd rs1 imm) := fun _ =>
  of_row "slli" 0x0000707F#32 0x00001013#32 (by decide) rfl (by rw [encode, encodeI_eq, mask_funct3]; rfl)

theorem srli (rd : XReg) (rs1 : XReg) (imm : BitVec 12) : Statement (.srli rd rs1 imm) := fun h =>
  of_row "srli" 0x4000707F#32 0x00005013#32 (by decide) rfl (by simp only [Instr.wf] at h; rw [encode, encodeI_eq, mask_bit30, bit30_masked]; simp_all; rfl)

theorem srai (rd : XReg) (rs1 : XReg) (imm : BitVec 12) : Statement (.srai rd rs1 imm) := fun h =>
  of_row "srai" 0x4000707F#32 0x40005013#32 (by decide) rfl (by simp only [Instr.wf] at h; rw [encode, encodeI_eq, mask_bit30, bit30_masked]; simp_all; rfl)

theorem lb (rd : XReg) (rs1 : XReg) (imm : BitVec 12) : Statement (.lb rd rs1 imm) := fun _ =>
  of_row "lb" 0x0000707F#32 0x00000003#32 (by decide) rfl (by rw [encode, encodeI_eq, mask_funct3]; rfl)

theorem lh (rd : XReg) (rs1 : XReg) (imm : BitVec 12) : Statement (.lh rd rs1 imm) := fun _ =>
  of_row "lh" 0x0000707F#32 0x00001003#32 (by decide) rfl (by rw [encode, encodeI_eq, mask_funct3]; rfl)

theorem lw (rd : XReg) (rs1 : XReg) (imm : BitVec 12) : Statement (.lw rd rs1 imm) := fun _ =>
  of_row "lw" 0x0000707F#32 0x00002003#32 (by decide) rfl (by rw [encode, encodeI_eq, mask_funct3]; rfl)

theorem lbu (rd : XReg) (rs1 : XReg) (imm : BitVec 12) : Statement (.lbu rd rs1 imm) := fun _ =>
  of_row "lbu" 0x0000707F#32 0x00004003#32 (by decide) rfl (by rw [encode, encodeI_eq, mask_funct3]; rfl)

theorem lhu (rd : XReg) (rs1 : XReg) (imm : BitVec 12) : Statement (.lhu rd rs1 imm) := fun _ =>
  of_row "lhu" 0x0000707F#32 0x00005003#32 (by decide) rfl (by rw [encode, encodeI_eq, mask_funct3]; rfl)

theorem jalr (rd : XReg) (rs1 : XReg) (imm : BitVec 12) : Statement (.jalr rd rs1 imm) := fun _ =>
  of_row "jalr" 0x0000707F#32 0x00000067#32 (by decide) rfl (by rw [encode, encodeI_eq, mask_funct3]; rfl)

theorem sb (rs1 : XReg) (rs2 : XReg) (imm : BitVec 12) : Statement (.sb rs1 rs2 imm) := fun _ =>
  of_row "sb" 0x0000707F#32 0x00000023#32 (by decide) rfl (by rw [encode, encodeS_eq, mask_funct3]; rfl)

theorem sh (rs1 : XReg) (rs2 : XReg) (imm : BitVec 12) : Statement (.sh rs1 rs2 imm) := fun _ =>
  of_row "sh" 0x0000707F#32 0x00001023#32 (by decide) rfl (by rw [encode, encodeS_eq, mask_funct3]; rfl)

theorem sw (rs1 : XReg) (rs2 : XReg) (imm : BitVec 12) : Statement (.sw rs1 rs2 imm) := fun _ =>
  of_row "sw" 0x0000707F#32 0x00002023#32 (by decide) rfl (by rw [encode, encodeS_eq, mask_funct3]; rfl)

theorem beq (rs1 : XReg) (rs2 : XReg) (off : BitVec 13) : Statement (.beq rs1 rs2 off) := fun _ =>
  of_row "beq" 0x0000707F#32 0x00000063#32 (by decide) rfl (by rw [encode, encodeB_eq, mask_funct3]; rfl)

theorem bne (rs1 : XReg) (rs2 : XReg) (off : BitVec 13) : Statement (.bne rs1 rs2 off) := fun _ =>
  of_row "bne" 0x0000707F#32 0x00001063#32 (by decide) rfl (by rw [encode, encodeB_eq, mask_funct3]; rfl)

theorem blt (rs1 : XReg) (rs2 : XReg) (off : BitVec 13) : Statement (.blt rs1 rs2 off) := fun _ =>
  of_row "blt" 0x0000707F#32 0x00004063#32 (by decide) rfl (by rw [encode, encodeB_eq, mask_funct3]; rfl)

theorem bge (rs1 : XReg) (rs2 : XReg) (off : BitVec 13) : Statement (.bge rs1 rs2 off) := fun _ =>
  of_row "bge" 0x0000707F#32 0x00005063#32 (by decide) rfl (by rw [encode, encodeB_eq, mask_funct3]; rfl)

theorem bltu (rs1 : XReg) (rs2 : XReg) (off : BitVec 13) : Statement (.bltu rs1 rs2 off) := fun _ =>
  of_row "bltu" 0x0000707F#32 0x00006063#32 (by decide) rfl (by rw [encode, encodeB_eq, mask_funct3]; rfl)

theorem bgeu (rs1 : XReg) (rs2 : XReg) (off : BitVec 13) : Statement (.bgeu rs1 rs2 off) := fun _ =>
  of_row "bgeu" 0x0000707F#32 0x00007063#32 (by decide) rfl (by rw [encode, encodeB_eq, mask_funct3]; rfl)

theorem lui (rd : XReg) (imm : BitVec 20) : Statement (.lui rd imm) := fun _ =>
  of_row "lui" 0x0000007F#32 0x00000037#32 (by decide) rfl (by rw [encode, encodeU_eq, mask_opcode]; rfl)

theorem auipc (rd : XReg) (imm : BitVec 20) : Statement (.auipc rd imm) := fun _ =>
  of_row "auipc" 0x0000007F#32 0x00000017#32 (by decide) rfl (by rw [encode, encodeU_eq, mask_opcode]; rfl)

theorem jal (rd : XReg) (off : BitVec 21) : Statement (.jal rd off) := fun _ =>
  of_row "jal" 0x0000007F#32 0x0000006F#32 (by decide) rfl (by rw [encode, encodeJ_eq, encodeU_eq, mask_opcode]; rfl)

theorem fmvXW (rd : XReg) (fs1 : FReg) : Statement (.fmvXW rd fs1) := fun _ =>
  of_row "fmv.x.w" 0xFFF0707F#32 0xE0000053#32 (by decide) rfl (by rw [encode, mask_fp]; rfl)

theorem fmvWX (fd : FReg) (rs1 : XReg) : Statement (.fmvWX fd rs1) := fun _ =>
  of_row "fmv.w.x" 0xFFF0707F#32 0xF0000053#32 (by decide) rfl (by rw [encode, mask_fp]; rfl)

theorem fence (imm : BitVec 12) (rs1 : XReg) (rd : XReg) : Statement (.fence imm rs1 rd) := fun _ =>
  of_row "fence" 0x0000707F#32 0x0000000F#32 (by decide) rfl (by rw [encode, encodeI_eq, mask_funct3]; rfl)

theorem ecall : Statement .ecall := fun _ =>
  of_row "ecall" 0xFFFFFFFF#32 0x00000073#32 (by decide) rfl (by decide)

theorem ebreak : Statement .ebreak := fun _ =>
  of_row "ebreak" 0xFFFFFFFF#32 0x00100073#32 (by decide) rfl (by decide)

end Sys2Proof.Laws.RowMatch
end

