-- ==== Sys2Proof/Tests/Slice0.lean ====
section
/-! SUPPORT. Tests/Slice0.lean: tests and witnesses. Every expected value comes from spec/: the vector's name stands beside it
(95_test_vectors.md), or the rule whose example it is. The witnesses at the end meet the hypotheses of the statements. -/

namespace Sys2Proof.Tests

open Sys2Proof.Machine

-- WellFormed: each check refuses an ill-formed term.

theorem test_wf_refuses_odd_branch_offsets :
    (Instr.beq 0 0 1).wf = false ∧ (Instr.bne 0 0 3).wf = false ∧ (Instr.blt 0 0 5).wf = false ∧
    (Instr.bge 0 0 7).wf = false ∧ (Instr.bltu 0 0 4095).wf = false ∧ (Instr.bgeu 0 0 (-1)).wf = false := by decide

theorem test_wf_refuses_odd_jump_offset : (Instr.jal 1 13).wf = false := by decide

theorem test_wf_refuses_srli_with_bit_10 : (Instr.srli 1 1 0x400).wf = false := by decide

theorem test_wf_refuses_srai_without_bit_10 : (Instr.srai 1 1 0x3FF).wf = false := by decide

theorem test_wf_admits_the_even_and_the_marked :
    (Instr.beq 0 0 (-4096)).wf = true ∧ (Instr.jal 1 0xFFFFE).wf = true ∧ (Instr.srli 1 1 0x821).wf = true ∧
    (Instr.srai 1 1 0xFFF).wf = true := by decide

-- Decode: one word or more for each constructor, from the vectors.

/-- A1, A5, A7, A10, A12, A15, A17, A19, A22, A23. -/
theorem test_decode_r_type :
    decode 0x002081B3#32 = .ok (.add 3 1 2) ∧ decode 0x402081B3#32 = .ok (.sub 3 1 2) ∧
    decode 0x002091B3#32 = .ok (.sll 3 1 2) ∧ decode 0x0020A1B3#32 = .ok (.slt 3 1 2) ∧
    decode 0x0020B1B3#32 = .ok (.sltu 3 1 2) ∧ decode 0x0020C1B3#32 = .ok (.xor 3 1 2) ∧
    decode 0x0020D1B3#32 = .ok (.srl 3 1 2) ∧ decode 0x4020D1B3#32 = .ok (.sra 3 1 2) ∧
    decode 0x0020E1B3#32 = .ok (.or 3 1 2) ∧ decode 0x0020F1B3#32 = .ok (.and 3 1 2) := by decide

/-- I4, I9, I10, I14, I16, I20. -/
theorem test_decode_i_type :
    decode 0x80008093#32 = .ok (.addi 1 1 (-2048)) ∧ decode 0x8000A113#32 = .ok (.slti 2 1 (-2048)) ∧
    decode 0xFFF0B113#32 = .ok (.sltiu 2 1 (-1)) ∧ decode 0xFFF0C113#32 = .ok (.xori 2 1 (-1)) ∧
    decode 0x8000E113#32 = .ok (.ori 2 1 (-2048)) ∧ decode 0xFF00F113#32 = .ok (.andi 2 1 (-16)) := by decide

/-- K2 to K5. -/
theorem test_decode_shift_immediates :
    decode 0x02109093#32 = .ok (.slli 1 1 0x021) ∧ decode 0x7E109093#32 = .ok (.slli 1 1 0x7E1) ∧
    decode 0x8210D113#32 = .ok (.srli 2 1 0x821) ∧ decode 0x4210D113#32 = .ok (.srai 2 1 0x421) := by decide

/-- L1, L2, L4, L5, L8, J15. -/
theorem test_decode_loads_and_jalr :
    decode 0x00050283#32 = .ok (.lb 5 10 0) ∧ decode 0x00054283#32 = .ok (.lbu 5 10 0) ∧
    decode 0x00051283#32 = .ok (.lh 5 10 0) ∧ decode 0x00055283#32 = .ok (.lhu 5 10 0) ∧
    decode 0xFFC52283#32 = .ok (.lw 5 10 (-4)) ∧ decode 0xFFF080E7#32 = .ok (.jalr 1 1 (-1)) := by decide

/-- T15, T5, T16, K14. -/
theorem test_decode_stores :
    decode 0x80B50023#32 = .ok (.sb 10 11 (-2048)) ∧ decode 0x00B510A3#32 = .ok (.sh 10 11 1) ∧
    decode 0x7EB52FA3#32 = .ok (.sw 10 11 2047) ∧ decode 0xFEB52E23#32 = .ok (.sw 10 11 (-4)) := by decide

/-- K18, K19, K11, B5, B4, B3, B14. -/
theorem test_decode_branches :
    decode 0x7E000FE3#32 = .ok (.beq 0 0 4094) ∧ decode 0x80000063#32 = .ok (.beq 0 0 (-4096)) ∧
    decode 0xFE029CE3#32 = .ok (.bne 5 0 (-8)) ∧ decode 0x0020C863#32 = .ok (.blt 1 2 16) ∧
    decode 0x0020D863#32 = .ok (.bge 1 2 16) ∧ decode 0x0020E863#32 = .ok (.bltu 1 2 16) ∧
    decode 0x0020F863#32 = .ok (.bgeu 1 2 16) := by decide

/-- K15, J5, K12, K20, K21, K16, K17, K6 to K10. -/
theorem test_decode_the_rest :
    decode 0xFFFFF2B7#32 = .ok (.lui 5 0xFFFFF) ∧ decode 0xFFFFF297#32 = .ok (.auipc 5 0xFFFFF) ∧
    decode 0xFFDFF06F#32 = .ok (.jal 0 (-4)) ∧ decode 0x7FFFF0EF#32 = .ok (.jal 1 0xFFFFE) ∧
    decode 0x800000EF#32 = .ok (.jal 1 0x100000) ∧ decode 0xE00085D3#32 = .ok (.fmvXW 11 1) ∧
    decode 0xF00500D3#32 = .ok (.fmvWX 1 10) ∧ decode 0x0FF0000F#32 = .ok (.fence 0x0FF 0 0) ∧
    decode 0x8330000F#32 = .ok (.fence 0x833 0 0) ∧ decode 0x0000000F#32 = .ok (.fence 0 0 0) ∧
    decode 0x00100073#32 = .ok .ebreak ∧ decode 0x00000073#32 = .ok .ecall := by decide

/-- X1 to X34: the words that do not decode. -/
def illegalWords : List Word :=
  [0x00000000, 0xFFFFFFFF, 0x02000033, 0x20000033, 0x40001033, 0x40007033, 0x0000100F, 0x00003003, 0x00006003] ++
  [0x00003023, 0x00002063, 0x00003063, 0x00001067, 0x00001073, 0x00002073, 0x00200073, 0x10500073, 0x30200073] ++
  [0x00000053, 0xE0001053, 0xE0100053, 0xE2000053, 0xF0001053, 0xD0000053, 0x00002007, 0x00002027, 0x0000202F] ++
  [0x00000001, 0x00008082, 0x0000001B, 0x0000003B, 0x00000057, 0x0000006B, 0x0000007F]

theorem test_decode_refuses_the_illegal_words : illegalWords.all (fun w => (decode w).toOption.isNone) = true := by
  decide

theorem test_decode_names_the_reason :
    decode 0x00008082#32 = .error .notWordForm ∧ decode 0x0000202F#32 = .error .unusedOpcode ∧
    decode 0x02000033#32 = .error .unusedFunction := by decide

theorem test_decode_table_word :
    decodeTableWord 32 0x40000033 = some (.sub 0 0 0) ∧ decodeTableWord 32 0xE0100053 = none := by decide

/-- The rows of rule R70 are pairwise disjoint: two rows differ on a bit that both masks test. -/
theorem test_opcode_table_rows_disjoint :
    opcodeTable.Pairwise (fun r q => r.pattern &&& (r.mask &&& q.mask) ≠ q.pattern &&& (r.mask &&& q.mask)) := by decide

theorem test_opcode_table_has_42_rows : opcodeTable.length = 42 := by decide

-- One step of one instruction, in `CFG-REF`, at the `pc` of the state given.

/-- A step of the word `w`, linked at `pc`. -/
def stepWord (w : Nat) (s : State) : Host.Outcome State Fault Refusal := step (s.withFetchWord 32 w)

/-- What `P` shows of the next state, if there is one. -/
def after {α : Type} (o : Host.Outcome State Fault Refusal) (P : State → α) : Option α :=
  match o with
  | .next t => some (P t)
  | .fault _ => none
  | .refused _ => none

/-- The fault, if there is one. -/
def faultOf (o : Host.Outcome State Fault Refusal) : Option Fault :=
  match o with
  | .next _ => none
  | .fault e => some e
  | .refused _ => none

/-- The register `r`, `pc` and the report after a step. -/
def shows (o : Host.Outcome State Fault Refusal) (r : XReg) : Option (Word × Word × Report) :=
  after o fun t => (t.readX r, t.pc, t.report)

/-- `CFG-REF` after reset, with two registers set. -/
def withX2 (r : XReg) (v : Word) (q : XReg) (w : Word) : State := (State.reset.writeX r v).writeX q w

/-- The state of vectors B1 to B18: `x1` and `x2` set, the branch at 0x00010100. -/
def branchState (v w : Word) : State := (withX2 1 v 2 w).setPc 0x00010100

/-- The pre-state `MEMA` of section 2.4, with `x10` set. -/
def memA (x10 : Word) : State :=
  { State.reset.writeX 10 x10 with mem := [(0x10000000, 0x80), (0x10000001, 0xFF), (0x10000002, 0x7F), (0x10000003, 0x01)] }

-- R-type.

theorem test_add_A1 : shows (stepWord 0x002081B3 (withX2 1 0x7FFFFFFF 2 1)) 3 = some (0x80000000, 0x10004, .retired []) := by decide
theorem test_add_A4 : shows (stepWord 0x001080B3 (withX2 1 0x80000000 2 0)) 1 = some (0, 0x10004, .retired []) := by decide
theorem test_sub_A5 : shows (stepWord 0x402081B3 (withX2 1 0 2 1)) 3 = some (0xFFFFFFFF, 0x10004, .retired []) := by decide
theorem test_sub_A6 : shows (stepWord 0x402081B3 (withX2 1 0x80000000 2 1)) 3 = some (0x7FFFFFFF, 0x10004, .retired []) := by decide
theorem test_sll_A8 : shows (stepWord 0x002091B3 (withX2 1 1 2 0x20)) 3 = some (1, 0x10004, .retired []) := by decide
theorem test_sll_A9 : shows (stepWord 0x002091B3 (withX2 1 0x80000001 2 0xFFFFFFE1)) 3 = some (2, 0x10004, .retired []) := by decide
theorem test_slt_A10 : shows (stepWord 0x0020A1B3 (withX2 1 0xFFFFFFFF 2 1)) 3 = some (1, 0x10004, .retired []) := by decide
theorem test_slt_A11 : shows (stepWord 0x0020A1B3 (withX2 1 0x80000000 2 0x7FFFFFFF)) 3 = some (1, 0x10004, .retired []) := by decide
theorem test_sltu_A12 : shows (stepWord 0x0020B1B3 (withX2 1 0xFFFFFFFF 2 1)) 3 = some (0, 0x10004, .retired []) := by decide
theorem test_sltu_A14 : shows (stepWord 0x002031B3 (withX2 2 0 3 7)) 3 = some (0, 0x10004, .retired []) := by decide
theorem test_xor_A15 : shows (stepWord 0x0020C1B3 (withX2 1 0xFF00FF00 2 0x0FF00FF0)) 3 = some (0xF0F0F0F0, 0x10004, .retired []) := by decide
theorem test_srl_A17 : shows (stepWord 0x0020D1B3 (withX2 1 0x80000000 2 0x1F)) 3 = some (1, 0x10004, .retired []) := by decide
theorem test_srl_A18 : shows (stepWord 0x0020D1B3 (withX2 1 0x80000000 2 0x24)) 3 = some (0x08000000, 0x10004, .retired []) := by decide
theorem test_sra_A19 : shows (stepWord 0x4020D1B3 (withX2 1 0x80000000 2 0x1F)) 3 = some (0xFFFFFFFF, 0x10004, .retired []) := by decide
theorem test_sra_A21 : shows (stepWord 0x4020D1B3 (withX2 1 0xF0000000 2 4)) 3 = some (0xFF000000, 0x10004, .retired []) := by decide
theorem test_or_A22 : shows (stepWord 0x0020E1B3 (withX2 1 0xF0F0F0F0 2 0x0F0F0F0F)) 3 = some (0xFFFFFFFF, 0x10004, .retired []) := by decide
theorem test_and_A23 : shows (stepWord 0x0020F1B3 (withX2 1 0xF0F0F0F0 2 0x3C3C3C3C)) 3 = some (0x30303030, 0x10004, .retired []) := by decide

-- I-type.

theorem test_addi_I3 : shows (stepWord 0x7FF08093 (withX2 1 0x7FFFFFFF 2 0)) 1 = some (0x800007FE, 0x10004, .retired []) := by decide
theorem test_addi_I6 : after (stepWord 0x00108013 (withX2 1 1 2 0)) (fun t => (t.readX 0, t.x, t.pc)) =
    some (0, (withX2 1 1 2 0).x, 0x10004) := by decide
theorem test_slti_I8 : shows (stepWord 0xFFF0A113 (withX2 1 0xFFFFFFFF 2 9)) 2 = some (0, 0x10004, .retired []) := by decide
theorem test_slti_I9 : shows (stepWord 0x8000A113 (withX2 1 0x80000000 2 0)) 2 = some (1, 0x10004, .retired []) := by decide
theorem test_sltiu_I10 : shows (stepWord 0xFFF0B113 (withX2 1 5 2 0)) 2 = some (1, 0x10004, .retired []) := by decide
theorem test_sltiu_I13 : shows (stepWord 0xFFF0B113 (withX2 1 0xFFFFFFFF 2 9)) 2 = some (0, 0x10004, .retired []) := by decide
theorem test_xori_I14 : shows (stepWord 0xFFF0C113 (withX2 1 0x12345678 2 0)) 2 = some (0xEDCBA987, 0x10004, .retired []) := by decide
theorem test_ori_I16 : shows (stepWord 0x8000E113 (withX2 1 0xFF 2 0)) 2 = some (0xFFFFF8FF, 0x10004, .retired []) := by decide
theorem test_andi_I18 : shows (stepWord 0x00F0F113 (withX2 1 0xFF 2 0)) 2 = some (0x0F, 0x10004, .retired []) := by decide
theorem test_andi_I20 : shows (stepWord 0xFF00F113 (withX2 1 0x12345678 2 0)) 2 = some (0x12345670, 0x10004, .retired []) := by decide
theorem test_slli_H1 : shows (stepWord 0x02109113 (withX2 1 1 2 0)) 2 = some (2, 0x10004, .retired []) := by decide
theorem test_slli_H4 : shows (stepWord 0xFFF09113 (withX2 1 1 2 0)) 2 = some (0x80000000, 0x10004, .retired []) := by decide
theorem test_srli_H7 : shows (stepWord 0x01F0D113 (withX2 1 0x80000000 2 0)) 2 = some (1, 0x10004, .retired []) := by decide
theorem test_srli_H9 : shows (stepWord 0x8210D113 (withX2 1 0x80000000 2 0)) 2 = some (0x40000000, 0x10004, .retired []) := by decide
theorem test_srai_H13 : shows (stepWord 0x4210D113 (withX2 1 0x80000000 2 0)) 2 = some (0xC0000000, 0x10004, .retired []) := by decide
theorem test_srai_H14 : shows (stepWord 0xFFF0D113 (withX2 1 0x80000000 2 0)) 2 = some (0xFFFFFFFF, 0x10004, .retired []) := by decide

-- Loads and stores.

theorem test_lb_L1 : shows (stepWord 0x00050283 (memA 0x10000000)) 5 = some (0xFFFFFF80, 0x10004, .retired []) := by decide
theorem test_lb_L3 : shows (stepWord 0x00250283 (memA 0x10000000)) 5 = some (0x7F, 0x10004, .retired []) := by decide
theorem test_lbu_L2 : shows (stepWord 0x00054283 (memA 0x10000000)) 5 = some (0x80, 0x10004, .retired []) := by decide
theorem test_lbu_L21 : shows (stepWord 0xFFF04283 (State.reset.writeX 5 7)) 5 =
    some (0, 0x10004, .retired [.reservedRead 0xFFFFFFFF]) := by decide
theorem test_lh_L6 : shows (stepWord 0x00251283 (memA 0x10000000)) 5 = some (0x17F, 0x10004, .retired []) := by decide
theorem test_lh_L11 : faultOf (stepWord 0x00151283 (memA 0x10000000)) = some (.loadMisaligned 0x10000 0x10000001) := by decide
theorem test_lhu_L5 : shows (stepWord 0x00055283 (memA 0x10000000)) 5 = some (0xFF80, 0x10004, .retired []) := by decide
theorem test_lhu_L19 : faultOf (stepWord 0x00105283 State.reset) = some (.loadMisaligned 0x10000 1) := by decide
theorem test_lw_L10 : shows (stepWord 0x00052503 (memA 0x10000000)) 10 = some (0x017FFF80, 0x10004, .retired []) := by decide
theorem test_lw_L15 : faultOf (stepWord 0x00152283 (memA 0x20000000)) = some (.loadAccessFault 0x10000 0x20000001) := by decide
theorem test_sb_T15 : after (stepWord 0x80B50023 (withX2 10 0x10000800 11 0x1FF)) (fun t => (t.mem, t.pc)) =
    some ([(0x10000000, 0xFF)], 0x10004) := by decide
theorem test_sh_T2 : after (stepWord 0x00B51123 (withX2 10 0x10000000 11 0x12345678)) (fun t => (t.mem, t.pc)) =
    some ([(0x10000002, 0x78), (0x10000003, 0x56)], 0x10004) := by decide
theorem test_sh_T13 : faultOf (stepWord 0x00B510A3 (withX2 10 0x80000000 11 1)) =
    some (.storeAccessFault 0x10000 0x80000001) := by decide
theorem test_sw_T4 : after (stepWord 0xFEB52E23 (withX2 10 0x70000010 11 0xA1B2C3D4)) (fun t => (t.mem, t.pc)) =
    some ([(0x7000000C, 0xD4), (0x7000000D, 0xC3), (0x7000000E, 0xB2), (0x7000000F, 0xA1)], 0x10004) := by decide
theorem test_sw_T6 : faultOf (stepWord 0x00B52123 (withX2 10 0x10000000 11 0x12345678)) =
    some (.storeMisaligned 0x10000 0x10000002) := by decide

-- Branches, jumps, upper immediates.

theorem test_beq_B2 : after (stepWord 0x00208863 (branchState 5 6)) (·.pc) = some 0x10104 := by decide
theorem test_beq_B20 : after (stepWord 0x80000063 (State.reset.setPc 0x11000)) (·.pc) = some 0x10000 := by decide
theorem test_bne_B6 : after (stepWord 0x00209863 (branchState 5 6)) (·.pc) = some 0x10110 := by decide
theorem test_bne_B7 : after (stepWord 0x00209863 (branchState 5 5)) (·.pc) = some 0x10104 := by decide
theorem test_blt_B5 : after (stepWord 0x0020C863 (branchState 1 0xFFFFFFFF)) (·.pc) = some 0x10104 := by decide
theorem test_blt_B17 : after (stepWord 0x0020C863 (branchState 0x80000000 0x7FFFFFFF)) (·.pc) = some 0x10110 := by decide
theorem test_bge_B4 : after (stepWord 0x0020D863 (branchState 1 0xFFFFFFFF)) (·.pc) = some 0x10110 := by decide
theorem test_bge_B11 : after (stepWord 0x0020D863 (branchState 5 5)) (·.pc) = some 0x10110 := by decide
theorem test_bltu_B3 : after (stepWord 0x0020E863 (branchState 1 0xFFFFFFFF)) (·.pc) = some 0x10110 := by decide
theorem test_bltu_B13 : after (stepWord 0x0020E863 (branchState 5 5)) (·.pc) = some 0x10104 := by decide
theorem test_bgeu_B14 : after (stepWord 0x0020F863 (branchState 0xFFFFFFFF 1)) (·.pc) = some 0x10110 := by decide
theorem test_bgeu_B15 : after (stepWord 0x0020F863 (branchState 1 0xFFFFFFFF)) (·.pc) = some 0x10104 := by decide
theorem test_lui_J1 : shows (stepWord 0xFFFFF2B7 State.reset) 5 = some (0xFFFFF000, 0x10004, .retired []) := by decide
theorem test_auipc_J5 : shows (stepWord 0xFFFFF297 (State.reset.setPc 0x10020)) 5 = some (0x0000F020, 0x10024, .retired []) := by decide
theorem test_auipc_J6 : shows (stepWord 0xFFFF0297 (State.reset.setPc 0x10020)) 5 = some (0x20, 0x10024, .retired []) := by decide
theorem test_jal_J8 : after (stepWord 0xFFDFF06F (State.reset.setPc 0x10004)) (fun t => (t.x, t.pc)) =
    some (State.reset.x, 0x10000) := by decide
theorem test_jal_J10 : shows (stepWord 0x7FFFF0EF (State.reset.setPc 0x10004)) 1 = some (0x10008, 0x110002, .retired []) := by decide
theorem test_jalr_J14 : shows (stepWord 0x004080E7 ((State.reset.writeX 1 0x10021).setPc 0x10014)) 1 =
    some (0x10018, 0x10024, .retired []) := by decide
theorem test_jalr_J16 : shows (stepWord 0x800002E7 (State.reset.setPc 0x10014)) 5 = some (0x10018, 0xFFFFF800, .retired []) := by decide

-- Float moves, system.

theorem test_fmv_x_w_F1 : shows (stepWord 0xE00085D3 (State.reset.writeF 1 0x7FC00001)) 11 =
    some (0x7FC00001, 0x10004, .retired []) := by decide
theorem test_fmv_x_w_F7 : shows (stepWord 0xE00282D3 ((State.reset.writeX 5 0x11111111).writeF 5 0xC0000000)) 5 =
    some (0xC0000000, 0x10004, .retired []) := by decide
theorem test_fmv_w_x_F4 : after (stepWord 0xF00500D3 (State.reset.writeX 10 0x7FA00000)) (fun t => (t.readF 1, t.readX 1, t.pc)) =
    some (0x7FA00000, 0, 0x10004) := by decide
theorem test_fmv_w_x_F5 : after (stepWord 0xF0050053 (State.reset.writeX 10 0x80000000)) (fun t => (t.readF 0, t.pc)) =
    some (0x80000000, 0x10004) := by decide
theorem test_fence_Y4 : after (stepWord 0x8330000F State.reset) (fun t => (t.x, t.pc, t.report)) =
    some (State.reset.x, 0x10004, .retired []) := by decide
theorem test_ecall_Y2 : after (stepWord 0x00000073 (withX2 10 1 17 0x5D)) (fun t => (t.x, t.pc, t.report)) =
    some ((withX2 10 1 17 0x5D).x, 0x10000, .envCall 0x10000) := by decide
theorem test_ebreak_Y3 : after (stepWord 0x00100073 (withX2 1 5 2 0)) (fun t => (t.x, t.pc, t.report)) =
    some ((withX2 1 5 2 0).x, 0x10000, .brk 0x10000) := by decide

-- Fetch and decode of a step; TEXT_PERM.

theorem test_fetch_Y5 : faultOf (step (State.reset.setPc 0x10040)) = some (.fetchFault 0x10040) := by decide
theorem test_illegal_X3 : faultOf (stepWord 0x02000033 State.reset) = some (.illegalInstruction 0x10000 0x02000033) := by decide

/-- `CFG-REF` with another `TEXT_PERM`, and two registers set. -/
def withTextPerm (p : TextPerm) (r : XReg) (v : Word) (q : XReg) (w : Word) : State :=
  let s := withX2 r v q w
  { s with params := { s.params with textPerm := p } }

theorem test_text_perm_L16_L17 :
    faultOf (stepWord 0x00052283 (withTextPerm .none 10 0x10000 5 7)) = some (.loadAccessFault 0x10000 0x10000) ∧
    shows (stepWord 0x00052283 (withTextPerm .load 10 0x10000 5 7)) 5 = some (0, 0x10004, .retired []) := by decide

theorem test_text_perm_T11_T12 :
    faultOf (stepWord 0x00B52023 (withTextPerm .load 10 0x10000 11 1)) = some (.storeAccessFault 0x10000 0x10000) ∧
    after (stepWord 0x00B52023 (withTextPerm .loadStore 10 0x10000 11 1)) (fun t => (t.mem, t.params.program.map (·.code))) =
      some ([(0x10000, 1)], [0x00B52023]) := by decide

-- Reset, the interface of the host, and the session.

theorem test_reset_values :
    State.reset.pc = 0x10000 ∧ (List.range 32).all (fun k => State.reset.readX (BitVec.ofNat 5 k) = 0) = true ∧
    State.reset.f = Vector.replicate 32 0#32 ∧ State.reset.mem = [] ∧ Memory.wf State.reset.mem := by decide

theorem test_core_fields : Sys2Proof.core.reset = State.reset ∧ Sys2Proof.core.step State.reset = step State.reset := ⟨rfl, rfl⟩

/-- Statements at consecutive word addresses from `PC_INIT` (rule R10). -/
def statementsFrom : Word → List Word → List Statement
  | _, [] => []
  | a, w :: ws => ⟨a, w, mnemonicOfWord w⟩ :: statementsFrom (a + 4) ws

/-- `CFG-REF` with a program. -/
def paramsFor (ws : List Word) : Params := { Config.cfgRef with program := statementsFrom 0x10000 ws }

/-- Program P2, a counted loop. -/
def loopWords : List Word := [0x00500293, 0x00000313, 0x00530333, 0xFFF28293, 0xFE029CE3, 0x00000073]

/-- Symbol tables of one file. -/
def loopSymbols : Symbols := ⟨[("main", 0x10000)], [("loop.s", [("again", 0x10008)])]⟩

/-- The session of S6: program P2 from reset, one declared breakpoint. -/
def loopSession : Session := Session.start (paramsFor loopWords) [0x10008] loopSymbols

/-- The session after some lines of input, and what was shown. -/
def afterLines (lines : List String) : Session × List Message := commandLoop exitAlways 5 (lines.map Input.line) loopSession

/-- What S6 tabulates: `pc`, `x5`, `x6` and the breakpoint map. -/
def tabulate (d : Session) : Word × Word × Word × BpMap := (d.core.pc, d.core.readX 5, d.core.readX 6, d.bp)

theorem test_session_S6_first : tabulate (afterLines ["continue"]).1 = (0x10008, 5, 0, [(0x10008, .disarmed)]) := by decide

theorem test_session_S6_second :
    tabulate (afterLines ["continue", "C"]).1 = (0x10008, 4, 5, [(0x10008, .disarmed)]) := by decide

theorem test_session_S6_step :
    tabulate (afterLines ["continue", "s"]).1 = (0x1000C, 5, 5, [(0x10008, .armed)]) := by decide

/-- S7: the rejected addresses, the one already present, and reset. -/
theorem test_session_S7 :
    (afterLines ["breakpoint 0x00010002"]).1.bp = loopSession.bp ∧ (afterLines ["b 0x10000000"]).2 = [.rejected] ∧
    (afterLines ["B 65532"]).2 = [.rejected] ∧ (afterLines ["breakpoint 65544"]).1.bp = [(0x10008, .armed)] ∧
    (afterLines ["continue", "reset"]).1.core = loopSession.core := by decide

/-- Rules R200, R212 to R214, and 10_state.md rules R16, R19. -/
theorem test_parse :
    parseCommand "CONTINUE" ["extra"] = ⟨.continue, true⟩ ∧ parseCommand "?" [] = ⟨.help, false⟩ ∧
    parseCommand "jump" ["1"] = ⟨.unknown, false⟩ ∧ parseCommand "memory" ["0x10"] = ⟨.memory (some 16) (some 12), false⟩ ∧
    parseCommand "delete" ["12z"] = ⟨.delete none, false⟩ ∧ parseCommand "delete" [] = ⟨.badUsage, false⟩ ∧
    tokensOf " \tb  16 " = ["b", "16"] ∧
    lookupRegister "t0" = some (.x 5) ∧ lookupRegister "fp" = some (.x 8) ∧ lookupRegister "f31" = some (.f 31) ∧
    lookupRegister "pc" = some .pc ∧ lookupRegister "x32" = none := by decide

/-- Rules R211, R213: a known file name and an unknown one. -/
theorem test_session_symbols :
    (afterLines ["globals", "locals loop.s", "locals other.s"]).2 =
      [.symbols [("main", 0x10000)], .symbols [("again", 0x10008)], .inputError] := by decide

/-- Rules R200, R212, R214: a warning of extra arguments, `!`, the status of the process, and no command after it. -/
theorem test_session_exit :
    (afterLines ["list now", "!", "quit", "list"]).2 =
      [.extraArguments, .breakpoints [0x10008], .extraArguments, .breakpoints [0x10008]] ∧
    (afterLines ["list now", "!", "quit", "list"]).1.status = .terminated (some 0) ∧
    (commandLoop exitAlways 5 [.failure] loopSession).1.status = .terminated none := by decide

/-- Rule R193: no command comes into a `continue` that runs; it goes on to where it stops. -/
theorem test_session_running :
    let d := (commandLoop exitAlways 2 [.line "continue", .line "reset"] loopSession).1
    d.status = .running ∧ d.core.pc = 0x10008 ∧ (resumeRun exitAlways 1 d).1.status = .halted 0x10008 := by decide

/-- Rule R203: a declared address outside text or misaligned is no breakpoint. -/
theorem test_session_start :
    (Session.start (paramsFor loopWords) [0x10008, 0x10002, 0x10000000, 0x10000] loopSymbols).bp =
      [(0x10000, .armed), (0x10008, .armed)] := by decide

/-- P1b: the source's end-to-end example with the constant loaded. -/
theorem test_run_P1b :
    (match runFor exitAlways 3 (State.ofParams (paramsFor [0x00500093, 0x02109093, 0x00000073])) with
     | .exited t => (t.readX 1, t.pc)
     | _ => (0, 0)) = (10, 0x10008) := by decide

-- Witnesses: for each statement with hypotheses, states and operands that meet all of them, clause by clause.

/-- A program, from reset. -/
def progState (ws : List Word) : State := State.ofParams (paramsFor ws)

/-- The next state of a step, `s` itself if there is none. -/
def nextOf (s : State) : State := (after (step s) id).getD s

theorem step_of_nextOf {s : State} (h : (after (step s) id).isSome = true) : step s = .next (nextOf s) := by
  unfold nextOf
  cases hs : step s <;> rw [hs] at h <;> first | rfl | exact absurd h (by simp [after])

theorem witness_DecodeOfEncodeIsTheInstruction :
    (Instr.srai 31 31 0xFFF).wf = true ∧ (Instr.jal 31 0xFFFFE).wf = true ∧ (Instr.beq 31 31 (-4096)).wf = true := by decide

theorem witness_DecodedWordsAreEncodings : decode 0xFFF0D113#32 = .ok (.srai 2 1 0xFFF) := by decide

/-- A word that decodes, and the row that matches it. -/
theorem witness_DecodeAgreesWithTheTable :
    decode 0x8210D113#32 = .ok (.srli 2 1 0x821) ∧ ⟨"srli", 0x4000707F#32, 0x00005013#32⟩ ∈ opcodeTable ∧
    0x8210D113#32 &&& 0x4000707F#32 = 0x00005013#32 := by decide

/-- One word for each clause, each fetched. -/
theorem witness_UnusedEncodingsFaultAsIllegal :
    (∀ w, fetchStatement (progState [w]) = some ⟨0x10000, w, mnemonicOfWord w⟩) ∧
    (0x00008082#32).extractLsb' 0 2 ≠ 0b11#2 ∧ 0x00000000#32 ∈ illegalWords ∧ 0xFFFFFFFF#32 ∈ illegalWords ∧
    ((0x00006003#32).extractLsb' 0 7 = 0b0000011#7 ∧ (0x00006003#32).extractLsb' 12 3 = 0b110#3) ∧
    ((0x00003023#32).extractLsb' 0 7 = 0b0100011#7 ∧ 3 ≤ ((0x00003023#32).extractLsb' 12 3).toNat) ∧
    ((0x00002063#32).extractLsb' 0 7 = 0b1100011#7 ∧ (0x00002063#32).extractLsb' 12 3 = 0b010#3) ∧
    ((0x00001067#32).extractLsb' 0 7 = 0b1100111#7 ∧ (0x00001067#32).extractLsb' 12 3 ≠ 0b000#3) ∧
    ((0x0000100F#32).extractLsb' 0 7 = 0b0001111#7 ∧ (0x0000100F#32).extractLsb' 12 3 ≠ 0b000#3) ∧
    ((0x40001033#32).extractLsb' 25 7 = 0b0100000#7 ∧ (0x40001033#32).extractLsb' 12 3 = 0b001#3) ∧
    0xE0100053#32 &&& 0xFFF0707F#32 = 0xE0100053#32 ∧ (0x30200073#32).extractLsb' 0 7 = 0b1110011#7 ∧
    (0x0000202F#32).extractLsb' 0 7 = 0b0101111#7 := ⟨fun _ => rfl, by decide⟩

/-- No statement at `pc`; a statement that decodes and one that does not, in a program without repeats. -/
theorem witness_StepRunsTheDecodedInstruction :
    (∀ st ∈ ((progState [0x13]).setPc 0x10004).params.program, st.address ≠ 0x10004#32) ∧
    (⟨0x10000, 0x13, "addi"⟩ ∈ (progState [0x13]).params.program ∧ (progState [0x13]).pc = 0x10000 ∧
      (progState [0x13]).params.program.Pairwise (fun a b => a.address ≠ b.address) ∧ decode 0x13#32 = .ok (.addi 0 0 0)) ∧
    (⟨0x10000, 0x2000033, ""⟩ ∈ (progState [0x2000033]).params.program ∧ (progState [0x2000033]).pc = 0x10000 ∧
      (progState [0x2000033]).params.program.Pairwise (fun a b => a.address ≠ b.address) ∧
      decode 0x2000033#32 = .error .unusedFunction) := by decide

theorem witness_StepIsTotalAndOutcomesCarryThePc :
    step State.reset = .fault (.fetchFault 0x10000) ∧ step (progState [0x13]) = .next (nextOf (progState [0x13])) ∧
    step (progState [0x73]) = .next (nextOf (progState [0x73])) ∧ (nextOf (progState [0x73])).report = .envCall 0x10000 ∧
    step (progState [0x100073]) = .next (nextOf (progState [0x100073])) ∧
    (nextOf (progState [0x100073])).report = .brk 0x10000 :=
  ⟨rfl, step_of_nextOf (by decide), step_of_nextOf (by decide), by decide, step_of_nextOf (by decide), by decide⟩

theorem witness_LinkedProgramsHaveNoIllegalInstruction : programWf (paramsFor loopWords) := by decide

theorem witness_MisalignedPcIsAFetchFault :
    programWf ((progState loopWords).setPc 0x10002).params ∧ ((progState loopWords).setPc 0x10002).pc.toNat % 4 ≠ 0 := by decide

/-- An instruction that is no transfer, and both that report. -/
theorem witness_PcAdvancesByFourUnlessTransferred :
    (fetchInstr (progState [0x13]) = .ok (.addi 0 0 0) ∧ step (progState [0x13]) = .next (nextOf (progState [0x13])) ∧
      isTransfer (.addi 0 0 0) = false) ∧
    (fetchInstr (progState [0x73]) = .ok .ecall ∧ step (progState [0x73]) = .next (nextOf (progState [0x73]))) ∧
    (fetchInstr (progState [0x100073]) = .ok .ebreak ∧
      step (progState [0x100073]) = .next (nextOf (progState [0x100073]))) :=
  ⟨⟨by decide, step_of_nextOf (by decide), by decide⟩, ⟨by decide, step_of_nextOf (by decide)⟩,
    ⟨by decide, step_of_nextOf (by decide)⟩⟩

/-- The clauses of the register file's law: `x0`, the register written, another; the first and the last cell at reset. -/
theorem witness_IntegerRegisterFileLaws :
    (0 : XReg) = 0 ∧ ((31 : XReg) ≠ 0 ∧ (31 : XReg) = 31) ∧ ((1 : XReg) ≠ 0 ∧ (1 : XReg) ≠ 31) ∧ 0 < 31 ∧ 30 < 31 := by decide

theorem witness_FloatRegisterFileLaws : (0 : FReg) = 0 ∧ (31 : FReg) ≠ 0 := by decide

/-- The last byte, half-word and word of the data segment and of the stack; a reserved range. -/
theorem witness_LoadsReadTheirBytes :
    LoadAdmitted (memA 0x10007FFF) (effectiveAddr (memA 0x10007FFF) 10 0) .byte ∧
    LoadAdmitted (memA 0x10007FFE) (effectiveAddr (memA 0x10007FFE) 10 0) .half ∧
    LoadAdmitted (memA 0x7FFFFFFC) (effectiveAddr (memA 0x7FFFFFFC) 10 0) .word ∧
    LoadAdmitted (memA 0) (effectiveAddr (memA 0) 0 (-4)) .word :=
  ⟨⟨by decide, by decide⟩, ⟨by decide, by decide⟩, ⟨by decide, by decide⟩, ⟨by decide, by decide⟩⟩

/-- The first unmapped word and the last word of text; then misaligned addresses in the data segment, and an aligned one in a
reserved range. -/
theorem witness_LoadFaults :
    (regionOf (memA 0x80000000).params (effectiveAddr (memA 0x80000000) 10 0) = .reserved ∧
      (effectiveAddr (memA 0x80000000) 10 0).toNat % 4 = 0) ∧
    regionOf (memA 0x20000000).params (effectiveAddr (memA 0x20000000) 10 0) = .unmapped ∧
    (regionOf (memA 0x10000000).params (effectiveAddr (memA 0x10000000) 10 (-4)) = .text ∧
      (memA 0x10000000).params.textPerm = .none) ∧
    regionOf (memA 0x10000000).params (effectiveAddr (memA 0x10000000) 10 1) = .data ∧
    (effectiveAddr (memA 0x10000000) 10 1).toNat % 2 ≠ 0 ∧ (effectiveAddr (memA 0x10000000) 10 2).toNat % 4 ≠ 0 := by decide

/-- A load that warns: vector L21. -/
theorem witness_WarningsComeFromReservedLoadsOnly :
    after (exec (.lbu 5 0 (-1)) State.reset) (·.report) = some (.retired [.reservedRead 0xFFFFFFFF]) ∧
    after (exec (.lbu 5 10 0) (memA 0x10000000)) (·.report) = some (.retired []) := by decide

theorem witness_StoresWriteTheirBytes :
    Memory.wf (memA 0x10007FFF).mem ∧ StoreAdmitted (memA 0x10007FFF) (effectiveAddr (memA 0x10007FFF) 10 0) .byte ∧
    StoreAdmitted (memA 0x10007FFE) (effectiveAddr (memA 0x10007FFE) 10 0) .half ∧
    StoreAdmitted (memA 0x7FFFFFFC) (effectiveAddr (memA 0x7FFFFFFC) 10 0) .word :=
  ⟨by decide, ⟨by decide, by decide⟩, ⟨by decide, by decide⟩, ⟨by decide, by decide⟩⟩

/-- Unmapped, reserved, text; then misaligned addresses in the data segment. -/
theorem witness_StoreFaults :
    regionOf (memA 0x20000000).params (effectiveAddr (memA 0x20000000) 10 0) = .unmapped ∧
    regionOf (memA 0x80000000).params (effectiveAddr (memA 0x80000000) 10 1) = .reserved ∧
    (regionOf (memA 0x10000).params (effectiveAddr (memA 0x10000) 10 0) = .text ∧
      (memA 0x10000).params.textPerm ≠ .loadStore) ∧
    regionOf (memA 0x10000000).params (effectiveAddr (memA 0x10000000) 10 1) = .data ∧
    (effectiveAddr (memA 0x10000000) 10 1).toNat % 2 ≠ 0 ∧ (effectiveAddr (memA 0x10000000) 10 2).toNat % 4 ≠ 0 := by decide

theorem witness_MemWriteWritesExactlyItsBytes :
    Memory.wf (memA 0).mem ∧ checkStore (memA 0) 0x10000000 .word = .ok () ∧
    checkStore (memA 0) 0x10000002 .word = .error (.storeMisaligned 0x10000 0x10000002) ∧ 3 < widthBytes .word ∧
    (0x10000004#32) ∉ accessBytes 0x10000000 .word ∧ (0x0FFFFFFF#32) ∉ accessBytes 0x10000000 .word := by decide

theorem witness_StoreThenLoadRoundTrips :
    Memory.wf (memA 0x10000000).mem ∧ (12 : XReg) ≠ 0 ∧
    StoreAdmitted (memA 0x10000000) (effectiveAddr (memA 0x10000000) 10 3) .byte ∧
    StoreAdmitted (memA 0x10000000) (effectiveAddr (memA 0x10000000) 10 2) .half ∧
    StoreAdmitted (memA 0x10000000) (effectiveAddr (memA 0x10000000) 10 0) .word :=
  ⟨by decide, by decide, ⟨by decide, by decide⟩, ⟨by decide, by decide⟩, ⟨by decide, by decide⟩⟩

theorem witness_MixedWidthReadsSeeTheStoredBytes : Memory.wf (memA 0).mem := by decide

theorem witness_AlignedAccessesStayInOneRegion :
    layoutWf Config.cfgRef ∧ (0xFFFFFFFC#32).toNat % widthBytes .word = 0 ∧ 3 < widthBytes .word := by decide

theorem witness_CanonicalMemoriesThatReadAlikeAreEqual :
    Memory.wf (memA 0).mem ∧ ∀ a : Word, readByte (memA 0).mem a = readByte (memA 0x10000000).mem a :=
  ⟨by decide, fun _ => rfl⟩

theorem witness_MoveIntegerToFloat : (31 : XReg) ≠ 0 := by decide

theorem witness_OnlyFmvWXWritesTheFloatFile :
    writesFloat (.fmvXW 11 1) = false ∧ (after (exec (.fmvXW 11 1) State.reset) (·.pc)) = some 0x10004 := by decide

/-- Two states that differ in `f1`; an instruction that goes on and one that faults. -/
theorem witness_OnlyFmvXWReadsTheFloatFile :
    AgreeButF State.reset (State.reset.writeF 1 5) ∧ State.reset ≠ State.reset.writeF 1 5 ∧
    readsFloat (.fmvWX 1 10) = false ∧ (after (exec (.fmvWX 1 10) State.reset) (·.pc)) = some 0x10004 ∧
    readsFloat (.sw 0 0 0) = false ∧ faultOf (exec (.sw 0 0 0) State.reset) = some (.storeAccessFault 0x10000 0) :=
  ⟨⟨rfl, rfl, rfl, rfl, rfl⟩, by decide, by decide, by decide, by decide, by decide⟩

theorem witness_EnvironmentCallReportsAndChangesNothing : fetchInstr (progState [0x73]) = .ok .ecall := by decide

theorem witness_BreakpointInstructionReportsAndChangesNothing : fetchInstr (progState [0x100073]) = .ok .ebreak := by decide

/-- The reset state of a linked program meets the invariant, and it steps. -/
theorem witness_StepKeepsTheInvariant :
    (progState loopWords).Inv ∧ step (progState loopWords) = .next (nextOf (progState loopWords)) :=
  ⟨⟨by decide, by decide, fun _ _ => rfl, by decide⟩, step_of_nextOf (by decide)⟩

theorem witness_ResetMeetsTheInvariant : paramsWf (paramsFor loopWords) := by decide

theorem witness_StepKeepsTheParametersAndTheProgram :
    step (progState loopWords) = .next (nextOf (progState loopWords)) := step_of_nextOf (by decide)

/-- An instruction that is no store, one that is, and a byte that no store may write. -/
theorem witness_OnlyStoresChangeMemory :
    isStore (.addi 1 0 5) = false ∧ (after (exec (.addi 1 0 5) State.reset) (·.pc)) = some 0x10004 ∧
    layoutWf (memA 0x10000000).params ∧ Memory.wf (memA 0x10000000).mem ∧ isStore (.sw 10 11 0) = true ∧
    (after (exec (.sw 10 11 0) (memA 0x10000000)) (·.pc)) = some 0x10004 ∧
    readOnlyAt (memA 0x10000000).params 0x0FFFFFFF = true ∧ readOnlyAt (memA 0x10000000).params 0x10000000 = false := by decide

theorem witness_ResetRestoresTheInitialValues : 0 < 31 ∧ 30 < 31 := by decide

theorem witness_ResetAfterARunIsResetBeforeIt :
    ReachesIn 2 (progState loopWords) (nextOf (nextOf (progState loopWords))) :=
  ⟨_, step_of_nextOf (by decide), _, step_of_nextOf (by decide), rfl⟩

/-- The session of P2 with no breakpoint; runs that end in each of the ways of the statement. -/
theorem witness_ContinueWithoutBreakpointsIsTheRun :
    (Session.start (paramsFor loopWords) [] loopSymbols).bp = [] ∧
    runFor exitAlways 1 (progState [0x73]) = .exited (nextOf (progState [0x73])) ∧
    runFor exitAlways 1 (progState [0x100073]) = .broke (nextOf (progState [0x100073])) ∧
    runFor exitAlways 1 (progState []) = .faulted (.fetchFault 0x10000) (progState []) ∧
    runFor exitAlways 0 (progState []) = .unfinished (progState []) := by decide

/-- The session of S6 at its breakpoint: armed there, with a statement that retires. -/
theorem witness_BreakpointRetriggerProtocol :
    let d : Session := { loopSession with core := (progState loopWords).setPc 0x10008 }
    fetchStatement d.core = some ⟨0x10008, 0x00530333, "add"⟩ ∧ bpFlag d.bp d.core.pc = some .armed ∧
    step d.core = .next (nextOf d.core) ∧ (nextOf d.core).report = .retired [] :=
  ⟨by decide, by decide, step_of_nextOf (by decide), by decide⟩

/-- A statement that retires, at a breakpoint; a step that faults. -/
theorem witness_StepCommandExecutesAndRearms :
    (step ((progState loopWords).setPc 0x10008) = .next (nextOf ((progState loopWords).setPc 0x10008)) ∧
      (nextOf ((progState loopWords).setPc 0x10008)).report = .retired [] ∧
      (bpFlag loopSession.bp 0x10008).isSome = true) ∧
    step (progState []) = .fault (.fetchFault 0x10000) := ⟨⟨step_of_nextOf (by decide), by decide, by decide⟩, rfl⟩

/-- A legal map; an address of each clause: misaligned, below text, above it, its first word and its last. -/
theorem witness_BreakpointCommandInsertsOrRejects :
    bpWf loopSession.core.params loopSession.bp ∧ (0x10002#32).toNat % 4 ≠ 0 ∧
    (0x0000FFFC#32).toNat < loopSession.core.params.segments.text.base.toNat ∧
    loopSession.core.params.segments.text.limit.toNat < (0x10000000#32).toNat ∧
    ((0x00010000#32).toNat % 4 = 0 ∧ loopSession.core.params.segments.text.base.toNat ≤ (0x00010000#32).toNat) ∧
    ((0x0FFFFFFC#32).toNat % 4 = 0 ∧ (0x0FFFFFFC#32).toNat ≤ loopSession.core.params.segments.text.limit.toNat) :=
  ⟨⟨by decide, by decide⟩, by decide, by decide, by decide, by decide, by decide⟩

/-- `delete` of an address that is present and of one that is absent. -/
theorem witness_ClearDeleteAndListCommands : bpFlag loopSession.bp 0x10008 ≠ none ∧ bpFlag loopSession.bp 0x1000C = none := by
  decide

theorem witness_InspectionCommandsChangeNothing : (∃ r, Command.print (some (.x 5)) = .print r) := ⟨_, rfl⟩

theorem witness_HostChangesTheBlockOnlyBySteppingAndReset :
    Command.clear ≠ .step ∧ Command.clear ≠ .continue ∧ Command.clear ≠ .reset ∧ Command.clear ≠ .again := by decide

theorem witness_CommandsKeepTheBreakpointMapLegal : bpWf loopSession.core.params loopSession.bp := ⟨by decide, by decide⟩

theorem witness_RepeatRunsThePrecedingCommand :
    awaitsCommand loopSession.status = true ∧ Command.step ≠ .again ∧
    awaitsCommand (dispatch exitAlways 1 ⟨.step, false⟩ loopSession).1.status = true := by decide

/-- A declared address that is legal, at each end of text, and one that is not. -/
theorem witness_SessionsStartWithTheDeclaredBreakpointsArmed :
    bpLegal (paramsFor loopWords) 0x00010000 = true ∧ bpLegal (paramsFor loopWords) 0x0FFFFFFC = true ∧
    bpLegal (paramsFor loopWords) 0x10002 = false ∧ bpLegal (paramsFor loopWords) 0x0FFFFFFE = false := by decide

/-- A `continue` that its bound cuts off, and one that it does not. -/
theorem witness_ContinueIsNotInterruptible :
    (hostContinue exitAlways 2 loopSession []).1.status = .running ∧
    (hostContinue exitAlways 3 loopSession []).1.status ≠ .running := by decide

end Sys2Proof.Tests
end

/-! PROOFS. The integer register file (10_state.md rules R14, R15) and the inspection commands (10_state.md rule R34). -/

namespace Sys2Proof.Machine

-- The integer file.

/-- What any register reads after a write to any register. -/
theorem readX_writeX (s : State) (r q : XReg) (v : Word) :
    (s.writeX r v).readX q = if q = 0 then 0 else if q = r then v else s.readX q := by
  split
  · next hq => rw [hq]; exact readX_zero _
  · next hq =>
    split
    · next hqr => rw [hqr]; exact readX_writeX_same s r v (hqr ▸ hq)
    · next hqr => exact readX_writeX_other s r q v hqr

/-- `x[k+1]` is the entry `k` of the file, which holds no `x[0]`. -/
theorem readX_ofNat_succ (s : State) (k : Nat) (h : k < 31) : s.readX (BitVec.ofNat 5 (k + 1)) = s.x[k] := by
  have hk : (BitVec.ofNat 5 (k + 1)).toNat = k + 1 := Nat.mod_eq_of_lt (by omega)
  simp [State.readX, hk]

/-- Settles O11, from the laws of one write and the reset state's file, which is `xregInit`. -/
theorem integerRegisterFileLaws : Obligations.IntegerRegisterFileLaws := fun s r q v =>
  ⟨readX_writeX s r q v, writeX_zero s v, writeX_pc s r v, writeX_f s r v, writeX_mem s r v,
    fun p k h => readX_ofNat_succ (State.ofParams p) k h⟩

-- The inspection commands: each is an `answer`, which touches neither the block nor the breakpoint map.

theorem perform_print_some (host : HostEcall) (fuel : Nat) (d : Session) (r : RegName) :
    perform host fuel (.print (some r)) d = answer d [.value r (registerValue d.core r)] := rfl

theorem perform_print_eq_answer (host : HostEcall) (fuel : Nat) (d : Session) (r : Option RegName) :
    ∃ ms, perform host fuel (.print r) d = answer d ms := by
  cases r with
  | none => exact ⟨_, rfl⟩
  | some r => exact ⟨_, perform_print_some host fuel d r⟩

theorem perform_memory_eq_answer (host : HostEcall) (fuel : Nat) (d : Session) (a : Option Word) (n : Option Nat) :
    ∃ ms, perform host fuel (.memory a n) d = answer d ms := by
  cases a with
  | none => exact ⟨_, rfl⟩
  | some a =>
    cases n with
    | none => exact ⟨_, rfl⟩
    | some n => exact ⟨_, rfl⟩

theorem perform_locals_eq_answer (host : HostEcall) (fuel : Nat) (d : Session) (file : String) :
    ∃ ms, perform host fuel (.locals file) d = answer d ms := by
  simp only [perform]
  cases localsOf d.symbols file with
  | none => exact ⟨_, rfl⟩
  | some table => exact ⟨_, rfl⟩

theorem perform_inspection_eq_answer (host : HostEcall) (fuel : Nat) (d : Session) {c : Command}
    (hc : (∃ r, c = .print r) ∨ (∃ a n, c = .memory a n) ∨ c = .showx ∨ c = .showf ∨ c = .globals ∨
      (∃ f, c = .locals f)) : ∃ ms, perform host fuel c d = answer d ms := by
  obtain ⟨r, rfl⟩ | ⟨a, n, rfl⟩ | rfl | rfl | rfl | ⟨file, rfl⟩ := hc
  · exact perform_print_eq_answer host fuel d r
  · exact perform_memory_eq_answer host fuel d a n
  · exact ⟨_, rfl⟩
  · exact ⟨_, rfl⟩
  · exact ⟨_, rfl⟩
  · exact perform_locals_eq_answer host fuel d file

/-- Settles O55: an inspection command is an `answer`, and `print` answers with the register's value. -/
theorem inspectionCommandsChangeNothing : Obligations.InspectionCommandsChangeNothing := by
  intro host fuel d c hc
  obtain ⟨ms, hms⟩ := perform_inspection_eq_answer host fuel d hc
  refine ⟨by rw [hms, answer_core], by rw [hms, answer_bp], ?_⟩
  rintro r rfl
  rw [perform_print_some, answer_messages, registerValue]

end Sys2Proof.Machine

/-! PROOFS. The breakpoint commands `clear`, `delete` and `list`, and the command `reset` (60_exceptions.md rules R207 to
R210). -/

namespace Sys2Proof.Machine

-- The addresses of the breakpoint map.

@[simp] theorem bpFlag_nil (a : Word) : bpFlag [] a = none := rfl

/-- An address stands in the map's list of addresses exactly when it has a flag. -/
theorem mem_addresses_iff_bpFlag_ne_none (bp : BpMap) (a : Word) : a ∈ bp.map (·.1) ↔ bpFlag bp a ≠ none := by
  induction bp with
  | nil => simp
  | cons e bp ih =>
    rw [List.map_cons, List.mem_cons, ih, bpFlag_cons]
    by_cases h : e.1 = a
    · simp [h]
    · simp [h, Ne.symm h]

-- What each command answers.

theorem perform_clear (host : HostEcall) (fuel : Nat) (d : Session) :
    perform host fuel .clear d = answer { d with bp := [] } [] := rfl

theorem perform_list (host : HostEcall) (fuel : Nat) (d : Session) :
    perform host fuel .list d = answer d [.breakpoints (d.bp.map (·.1))] := rfl

theorem perform_reset (host : HostEcall) (fuel : Nat) (d : Session) :
    perform host fuel .reset d = answer { d with core := resetBlock d.core } [] := rfl

theorem perform_delete_of_absent (host : HostEcall) (fuel : Nat) {d : Session} {a : Word} (h : bpFlag d.bp a = none) :
    perform host fuel (.delete (some a)) d = answer d [.absent a] := by
  simp [perform, h]

theorem perform_delete_of_present (host : HostEcall) (fuel : Nat) {d : Session} {a : Word} (h : bpFlag d.bp a ≠ none) :
    perform host fuel (.delete (some a)) d = answer { d with bp := bpRemove d.bp a } [] :=
  if_pos (Option.isSome_iff_ne_none.2 h)

/-- After `delete` of an address, present or not, it has no flag, and every other address is as before. -/
theorem bpFlag_perform_delete (host : HostEcall) (fuel : Nat) (d : Session) (a b : Word) :
    bpFlag (perform host fuel (.delete (some a)) d).1.bp b = if b = a then none else bpFlag d.bp b := by
  by_cases h : bpFlag d.bp a = none
  · rw [perform_delete_of_absent host fuel h, answer_bp]
    split
    · next hb => rw [hb, h]
    · rfl
  · rw [perform_delete_of_present host fuel h, answer_bp, bpFlag_bpRemove]

/-- `delete` warns when the address is absent and shows nothing otherwise. -/
theorem perform_delete_messages (host : HostEcall) (fuel : Nat) (d : Session) (a : Word) :
    (perform host fuel (.delete (some a)) d).2 = if bpFlag d.bp a = none then [.absent a] else [] := by
  split
  · next h => rw [perform_delete_of_absent host fuel h, answer_messages]
  · next h => rw [perform_delete_of_present host fuel h, answer_messages]

/-- Settles O53, from what each of the three commands answers and the addresses of the map. -/
theorem clearDeleteAndListCommands : Obligations.ClearDeleteAndListCommands := by
  intro host fuel d a
  refine ⟨fun b => ?clear, ⟨bpFlag_perform_delete host fuel d a, ?absent, ?present⟩, ?list⟩
  case clear => rw [perform_clear, answer_bp, bpFlag_nil]
  case absent => simp [perform_delete_messages]
  case present => simp [perform_delete_messages]
  case list =>
    rw [perform_list]
    exact ⟨answer_bp d _, answer_core d _, _, answer_messages d _, mem_addresses_iff_bpFlag_ne_none d.bp⟩

-- The reset transition, field by field (70_reset_and_hazards.md rules R220 and R222).

@[simp] theorem resetBlock_x (s : State) : (resetBlock s).x = s.params.xregInit := rfl
@[simp] theorem resetBlock_f (s : State) : (resetBlock s).f = s.params.fregInit := rfl
@[simp] theorem resetBlock_pc (s : State) : (resetBlock s).pc = s.params.pcInit := rfl
@[simp] theorem resetBlock_mem (s : State) : (resetBlock s).mem = s.params.memInit := rfl
@[simp] theorem resetBlock_params (s : State) : (resetBlock s).params = s.params := rfl

/-- Settles O54: the command answers with the block after the reset transition and leaves the breakpoint map. -/
theorem resetCommandPreservesBreakpoints : Obligations.ResetCommandPreservesBreakpoints := by
  intro host fuel d
  simp only [perform_reset, answer_bp, answer_core, resetBlock_x, resetBlock_f, resetBlock_pc, resetBlock_mem,
    resetBlock_params, and_self]

end Sys2Proof.Machine

/-! PROOFS. The decoder and the encoder (30_encoding.md sections 2 to 5): the decoder reads every well-formed instruction back
from its word, a word that decodes is the word of a well-formed instruction, and the decoder is the opcode table. -/

namespace Sys2Proof.Laws

open Sys2Proof.Machine

-- The major opcode selects (rule R71).

section
variable {w : Word}

theorem decode_of_load (h : opcodeOf w = 0b0000011#7) : decode w = decodeLoad w := by simp only [decode, h]

theorem decode_of_opImm (h : opcodeOf w = 0b0010011#7) : decode w = decodeOpImm w := by simp only [decode, h]

theorem decode_of_auipc (h : opcodeOf w = 0b0010111#7) : decode w = .ok (.auipc (rdOf w) (immUOf w)) := by
  simp only [decode, h]

theorem decode_of_store (h : opcodeOf w = 0b0100011#7) : decode w = decodeStore w := by simp only [decode, h]

theorem decode_of_op (h : opcodeOf w = 0b0110011#7) : decode w = decodeOp w := by simp only [decode, h]

theorem decode_of_lui (h : opcodeOf w = 0b0110111#7) : decode w = .ok (.lui (rdOf w) (immUOf w)) := by
  simp only [decode, h]

theorem decode_of_opFp (h : opcodeOf w = 0b1010011#7) : decode w = decodeOpFp w := by simp only [decode, h]

theorem decode_of_branch (h : opcodeOf w = 0b1100011#7) : decode w = decodeBranch w := by simp only [decode, h]

theorem decode_of_jal (h : opcodeOf w = 0b1101111#7) : decode w = .ok (.jal (rdOf w) (immJOf w)) := by
  simp only [decode, h]

theorem decode_of_system (h : opcodeOf w = 0b1110011#7) : decode w = decodeSystem w := by simp only [decode, h]

theorem decode_of_fence (h : opcodeOf w = 0b0001111#7) (h3 : funct3Of w = 0b000#3) :
    decode w = .ok (.fence (immIOf w) (rs1Of w) (rdOf w)) := by simp only [decode, h, h3]

theorem decode_of_jalr (h : opcodeOf w = 0b1100111#7) (h3 : funct3Of w = 0b000#3) :
    decode w = .ok (.jalr (rdOf w) (rs1Of w) (immIOf w)) := by simp only [decode, h, h3]

end

-- Decode after encode: the major opcode selects the decoder, and every field reads back as it was put in.

theorem decode_encode {i : Instr} (hw : i.wf = true) : decode (encode i) = .ok i := by
  cases i
  case add | sub | sll | slt | sltu | xor | srl | sra | or | and =>
    rw [encode, decode_of_op (opcode_encodeR ..)]; simp [decodeOp]
  case addi | slti | sltiu | xori | ori | andi | slli =>
    rw [encode, decode_of_opImm (opcode_encodeI ..)]; simp [decodeOpImm]
  case srli | srai =>
    rw [Instr.wf] at hw
    rw [encode, decode_of_opImm (opcode_encodeI ..)]
    simp_all [decodeOpImm]
  case lb | lh | lw | lbu | lhu =>
    rw [encode, decode_of_load (opcode_encodeI ..)]; simp [decodeLoad]
  case sb | sh | sw =>
    rw [encode, decode_of_store (opcode_encodeS ..)]; simp [decodeStore]
  case beq | bne | blt | bge | bltu | bgeu =>
    rw [Instr.wf] at hw
    rw [encode, decode_of_branch (opcode_encodeB ..)]; simp [decodeBranch, hw]
  case lui => rw [encode, decode_of_lui (opcode_encodeU ..)]; simp
  case auipc => rw [encode, decode_of_auipc (opcode_encodeU ..)]; simp
  case jal =>
    rw [Instr.wf] at hw
    rw [encode, decode_of_jal (opcode_encodeJ ..)]; simp [hw]
  case fmvXW | fmvWX => rw [encode, decode_of_opFp (opcode_encodeR ..)]; simp [decodeOpFp]
  case jalr => rw [encode, decode_of_jalr (opcode_encodeI ..) (funct3_encodeI ..)]; simp
  case fence => rw [encode, decode_of_fence (opcode_encodeI ..) (funct3_encodeI ..)]; simp
  case ecall => rfl
  case ebreak => rfl

-- Encode after decode, one lemma for each major opcode.

/-- `i` is well-formed and `w` is its word. -/
def Encodes (i : Instr) (w : Word) : Prop := i.wf = true ∧ encode i = w

section
variable {w : Word} {i : Instr}

/-- A word is the R format of what its fields are known to hold. -/
theorem encodeR_of_fields {f7 : BitVec 7} {f3 : BitVec 3} {op : BitVec 7} (h7 : funct7Of w = f7)
    (h3 : funct3Of w = f3) (ho : opcodeOf w = op) : encodeR f7 (rs2Of w) (rs1Of w) f3 (rdOf w) op = w := by
  rw [← h7, ← h3, ← ho, encodeR_fields]

theorem encodeI_of_fields {f3 : BitVec 3} {op : BitVec 7} (h3 : funct3Of w = f3) (ho : opcodeOf w = op) :
    encodeI (immIOf w) (rs1Of w) f3 (rdOf w) op = w := by rw [← h3, ← ho, encodeI_fields]

theorem encodeS_of_fields {f3 : BitVec 3} {op : BitVec 7} (h3 : funct3Of w = f3) (ho : opcodeOf w = op) :
    encodeS (immSOf w) (rs2Of w) (rs1Of w) f3 op = w := by rw [← h3, ← ho, encodeS_fields]

theorem encodeB_of_fields {f3 : BitVec 3} {op : BitVec 7} (h3 : funct3Of w = f3) (ho : opcodeOf w = op) :
    encodeB (immBOf w) (rs2Of w) (rs1Of w) f3 op = w := by rw [← h3, ← ho, encodeB_fields]

theorem encodeU_of_opcode {op : BitVec 7} (ho : opcodeOf w = op) : encodeU (immUOf w) (rdOf w) op = w := by
  rw [← ho, encodeU_fields]

theorem encodeJ_of_opcode {op : BitVec 7} (ho : opcodeOf w = op) : encodeJ (immJOf w) (rdOf w) op = w := by
  rw [← ho, encodeJ_fields]

theorem encodes_of_decodeOp (ho : opcodeOf w = 0b0110011#7) (h : decodeOp w = .ok i) : Encodes i w := by
  unfold decodeOp at h
  split at h <;> cases h
  all_goals exact ⟨rfl, encodeR_of_fields ‹_› ‹_› ho⟩

theorem encodes_of_decodeOpImm (ho : opcodeOf w = 0b0010011#7) (h : decodeOpImm w = .ok i) : Encodes i w := by
  unfold decodeOpImm at h
  split at h
  case h_6 h3 =>
    split at h <;> cases h
    · next hb => exact ⟨(bit30_eq w).symm.trans hb, encodeI_of_fields h3 ho⟩
    · next hb => exact ⟨by rw [Instr.wf, ← bit30_eq]; simpa using hb, encodeI_of_fields h3 ho⟩
  all_goals cases h
  all_goals exact ⟨rfl, encodeI_of_fields ‹_› ho⟩

theorem encodes_of_decodeLoad (ho : opcodeOf w = 0b0000011#7) (h : decodeLoad w = .ok i) : Encodes i w := by
  unfold decodeLoad at h
  split at h <;> cases h
  all_goals exact ⟨rfl, encodeI_of_fields ‹_› ho⟩

theorem encodes_of_decodeStore (ho : opcodeOf w = 0b0100011#7) (h : decodeStore w = .ok i) : Encodes i w := by
  unfold decodeStore at h
  split at h <;> cases h
  all_goals exact ⟨rfl, encodeS_of_fields ‹_› ho⟩

theorem encodes_of_decodeBranch (ho : opcodeOf w = 0b1100011#7) (h : decodeBranch w = .ok i) : Encodes i w := by
  unfold decodeBranch at h
  split at h <;> cases h
  all_goals exact ⟨even_immB w, encodeB_of_fields ‹_› ho⟩

theorem encodes_of_decodeOpFp (ho : opcodeOf w = 0b1010011#7) (h : decodeOpFp w = .ok i) : Encodes i w := by
  unfold decodeOpFp at h
  split at h <;> cases h
  all_goals
    next h7 h2 h3 => exact ⟨rfl, by rw [encode, ← h2]; exact encodeR_of_fields h7 h3 ho⟩

theorem encodes_of_decodeSystem (h : decodeSystem w = .ok i) : Encodes i w := by
  unfold decodeSystem at h
  split at h
  · next hw => cases h; exact ⟨rfl, hw.symm⟩
  · split at h
    · next hw => cases h; exact ⟨rfl, hw.symm⟩
    · cases h

/-- A word that decodes is the word of the well-formed instruction it decodes to: by the major opcode. -/
theorem encodes_of_decode (h : decode w = .ok i) : Encodes i w := by
  unfold decode at h
  split at h
  case h_1 ho => exact encodes_of_decodeLoad ho h
  case h_2 ho =>
    split at h
    · next h3 => cases h; exact ⟨rfl, encodeI_of_fields h3 ho⟩
    · cases h
  case h_3 ho => exact encodes_of_decodeOpImm ho h
  case h_4 ho => cases h; exact ⟨rfl, encodeU_of_opcode ho⟩
  case h_5 ho => exact encodes_of_decodeStore ho h
  case h_6 ho => exact encodes_of_decodeOp ho h
  case h_7 ho => cases h; exact ⟨rfl, encodeU_of_opcode ho⟩
  case h_8 ho => exact encodes_of_decodeOpFp ho h
  case h_9 ho => exact encodes_of_decodeBranch ho h
  case h_10 ho =>
    split at h
    · next h3 => cases h; exact ⟨rfl, encodeI_of_fields h3 ho⟩
    · cases h
  case h_11 ho => cases h; exact ⟨even_immJ w, encodeJ_of_opcode ho⟩
  case h_12 ho => exact encodes_of_decodeSystem h
  case h_13 => split at h <;> cases h

end

/-- Settles O2, by the major opcode: every field of an encoded word reads back as it was put in. -/
theorem decodeOfEncodeIsTheInstruction : Obligations.DecodeOfEncodeIsTheInstruction := fun _ hw => decode_encode hw

/-- Settles O3, by the major opcode: every word is the encoding of its own fields. -/
theorem decodedWordsAreEncodings : Obligations.DecodedWordsAreEncodings := fun _ _ h => encodes_of_decode h

/-- Settles O1, by evaluating the decoder on each of the words. -/
theorem writtenWordsDecode : Obligations.WrittenWordsDecode := by
  unfold Obligations.WrittenWordsDecode
  decide

-- The opcode table (rules R69, R70).

/-- The word of a well-formed instruction passes its own row's test, whatever the instruction. -/
theorem rowMatch (i : Instr) : RowMatch.Statement i :=
  match i with
  | .add rd rs1 rs2 => RowMatch.add rd rs1 rs2
  | .sub rd rs1 rs2 => RowMatch.sub rd rs1 rs2
  | .sll rd rs1 rs2 => RowMatch.sll rd rs1 rs2
  | .slt rd rs1 rs2 => RowMatch.slt rd rs1 rs2
  | .sltu rd rs1 rs2 => RowMatch.sltu rd rs1 rs2
  | .xor rd rs1 rs2 => RowMatch.xor rd rs1 rs2
  | .srl rd rs1 rs2 => RowMatch.srl rd rs1 rs2
  | .sra rd rs1 rs2 => RowMatch.sra rd rs1 rs2
  | .or rd rs1 rs2 => RowMatch.or rd rs1 rs2
  | .and rd rs1 rs2 => RowMatch.and rd rs1 rs2
  | .addi rd rs1 imm => RowMatch.addi rd rs1 imm
  | .slti rd rs1 imm => RowMatch.slti rd rs1 imm
  | .sltiu rd rs1 imm => RowMatch.sltiu rd rs1 imm
  | .xori rd rs1 imm => RowMatch.xori rd rs1 imm
  | .ori rd rs1 imm => RowMatch.ori rd rs1 imm
  | .andi rd rs1 imm => RowMatch.andi rd rs1 imm
  | .slli rd rs1 imm => RowMatch.slli rd rs1 imm
  | .srli rd rs1 imm => RowMatch.srli rd rs1 imm
  | .srai rd rs1 imm => RowMatch.srai rd rs1 imm
  | .lb rd rs1 imm => RowMatch.lb rd rs1 imm
  | .lh rd rs1 imm => RowMatch.lh rd rs1 imm
  | .lw rd rs1 imm => RowMatch.lw rd rs1 imm
  | .lbu rd rs1 imm => RowMatch.lbu rd rs1 imm
  | .lhu rd rs1 imm => RowMatch.lhu rd rs1 imm
  | .jalr rd rs1 imm => RowMatch.jalr rd rs1 imm
  | .sb rs1 rs2 imm => RowMatch.sb rs1 rs2 imm
  | .sh rs1 rs2 imm => RowMatch.sh rs1 rs2 imm
  | .sw rs1 rs2 imm => RowMatch.sw rs1 rs2 imm
  | .beq rs1 rs2 off => RowMatch.beq rs1 rs2 off
  | .bne rs1 rs2 off => RowMatch.bne rs1 rs2 off
  | .blt rs1 rs2 off => RowMatch.blt rs1 rs2 off
  | .bge rs1 rs2 off => RowMatch.bge rs1 rs2 off
  | .bltu rs1 rs2 off => RowMatch.bltu rs1 rs2 off
  | .bgeu rs1 rs2 off => RowMatch.bgeu rs1 rs2 off
  | .lui rd imm => RowMatch.lui rd imm
  | .auipc rd imm => RowMatch.auipc rd imm
  | .jal rd off => RowMatch.jal rd off
  | .fmvXW rd fs1 => RowMatch.fmvXW rd fs1
  | .fmvWX fd rs1 => RowMatch.fmvWX fd rs1
  | .fence imm rs1 rd => RowMatch.fence imm rs1 rd
  | .ecall => RowMatch.ecall
  | .ebreak => RowMatch.ebreak

section
variable {w mask pattern : Word}

theorem slice_and (a b : Word) (k l : Nat) : (a &&& b).extractLsb' k l = a.extractLsb' k l &&& b.extractLsb' k l := by
  ext i h
  simp

theorem opcode_of_masked (h : w &&& mask = pattern) (hm : opcodeOf mask = 127#7) : opcodeOf w = opcodeOf pattern := by
  rw [← h, opcodeOf, opcodeOf, slice_and, ← opcodeOf, ← opcodeOf, hm, and_ones7]

theorem funct3_of_masked (h : w &&& mask = pattern) (hm : funct3Of mask = 7#3) : funct3Of w = funct3Of pattern := by
  rw [← h, funct3Of, funct3Of, slice_and, ← funct3Of, ← funct3Of, hm, and_ones3]

theorem funct7_of_masked (h : w &&& mask = pattern) (hm : funct7Of mask = 127#7) : funct7Of w = funct7Of pattern := by
  rw [← h, funct7Of, funct7Of, slice_and, ← funct7Of, ← funct7Of, hm, and_ones7]

theorem rs2_of_masked (h : w &&& mask = pattern) (hm : rs2Of mask = 31#5) : rs2Of w = rs2Of pattern := by
  rw [← h, rs2Of, rs2Of, slice_and, ← rs2Of, ← rs2Of, hm, and_ones5]

theorem bit30_of_masked (h : w &&& mask = pattern) (hm : mask.getLsbD 30 = true) :
    w.getLsbD 30 = pattern.getLsbD 30 := by
  rw [← h, BitVec.getLsbD_and, hm, Bool.and_true]

end

/-- A word that passes the row's test decodes to the row's instruction. -/
def RowDecodes (r : OpcodeRow) : Prop :=
  ∀ w : Word, w &&& r.mask = r.pattern → ∃ i, decode w = .ok i ∧ i.mnemonic = r.mnemonic

theorem opRows_decode : ∀ r ∈ opRows, RowDecodes r := by
  simp only [opRows, List.forall_mem_cons]
  refine ⟨?_, ?_, ?_, ?_, ?_, ?_, ?_, ?_, ?_, ?_, by simp⟩
  all_goals
    intro w h
    have ho := opcode_of_masked h rfl
    have h3 := funct3_of_masked h rfl
    have h7 := funct7_of_masked h rfl
    rw [decode_of_op ho, decodeOp, h7, h3]
    exact ⟨_, rfl, rfl⟩

theorem opImmRows_decode : ∀ r ∈ opImmRows, RowDecodes r := by
  simp only [opImmRows, List.forall_mem_cons]
  refine ⟨?_, ?_, ?_, ?_, ?_, ?_, ?_, ?srli, ?srai, by simp⟩
  case srli | srai =>
    intro w h
    have ho := opcode_of_masked h rfl
    have h3 := funct3_of_masked h rfl
    have h30 := bit30_of_masked h rfl
    rw [decode_of_opImm ho, decodeOpImm, h3, h30]
    exact ⟨_, rfl, rfl⟩
  all_goals
    intro w h
    have ho := opcode_of_masked h rfl
    have h3 := funct3_of_masked h rfl
    rw [decode_of_opImm ho, decodeOpImm, h3]
    exact ⟨_, rfl, rfl⟩

theorem loadStoreRows_decode : ∀ r ∈ loadStoreRows, RowDecodes r := by
  simp only [loadStoreRows, List.forall_mem_cons]
  refine ⟨?_, ?_, ?_, ?_, ?_, ?jalr, ?sb, ?sh, ?sw, by simp⟩
  case jalr =>
    intro w h
    rw [decode_of_jalr (opcode_of_masked h rfl) (funct3_of_masked h rfl)]
    exact ⟨_, rfl, rfl⟩
  case sb | sh | sw =>
    intro w h
    have ho := opcode_of_masked h rfl
    have h3 := funct3_of_masked h rfl
    rw [decode_of_store ho, decodeStore, h3]
    exact ⟨_, rfl, rfl⟩
  all_goals
    intro w h
    have ho := opcode_of_masked h rfl
    have h3 := funct3_of_masked h rfl
    rw [decode_of_load ho, decodeLoad, h3]
    exact ⟨_, rfl, rfl⟩

theorem branchRows_decode : ∀ r ∈ branchRows, RowDecodes r := by
  simp only [branchRows, List.forall_mem_cons]
  refine ⟨?_, ?_, ?_, ?_, ?_, ?_, by simp⟩
  all_goals
    intro w h
    have ho := opcode_of_masked h rfl
    have h3 := funct3_of_masked h rfl
    rw [decode_of_branch ho, decodeBranch, h3]
    exact ⟨_, rfl, rfl⟩

theorem otherRows_decode : ∀ r ∈ otherRows, RowDecodes r := by
  simp only [otherRows, List.forall_mem_cons]
  refine ⟨fun w h => ?lui, fun w h => ?auipc, fun w h => ?jal, fun w h => ?fmvXW, fun w h => ?fmvWX, fun w h => ?fence,
    fun w h => ?ecall, fun w h => ?ebreak, by simp⟩
  case lui => exact ⟨_, decode_of_lui (opcode_of_masked h rfl), rfl⟩
  case auipc => exact ⟨_, decode_of_auipc (opcode_of_masked h rfl), rfl⟩
  case jal => exact ⟨_, decode_of_jal (opcode_of_masked h rfl), rfl⟩
  case fmvXW | fmvWX =>
    have ho := opcode_of_masked h rfl
    have h3 := funct3_of_masked h rfl
    have h2 := rs2_of_masked h rfl
    have h7 := funct7_of_masked h rfl
    rw [decode_of_opFp ho, decodeOpFp, h7, h2, h3]
    exact ⟨_, rfl, rfl⟩
  case fence => exact ⟨_, decode_of_fence (opcode_of_masked h rfl) (funct3_of_masked h rfl), rfl⟩
  case ecall | ebreak =>
    obtain rfl : w = _ := BitVec.and_allOnes.symm.trans h
    exact ⟨_, rfl, rfl⟩

/-- A word that passes the test of any row decodes to that row's instruction. -/
theorem opcodeTable_decode : ∀ r ∈ opcodeTable, RowDecodes r := by
  simp only [opcodeTable, List.forall_mem_append]
  exact ⟨⟨⟨⟨opRows_decode, opImmRows_decode⟩, loadStoreRows_decode⟩, branchRows_decode⟩, otherRows_decode⟩

theorem opcodeTable_mnemonics_nodup : (opcodeTable.map (·.mnemonic)).Nodup := by decide

/-- Settles O4: a word that decodes is an encoding and passes its own row's test; a word that passes a row's test decodes to
the row's mnemonic; so two rows that match one word have one mnemonic. -/
theorem decodeAgreesWithTheTable : Obligations.DecodeAgreesWithTheTable := by
  intro w
  refine ⟨fun i h => ?row, fun r hr => opcodeTable_decode r hr w, fun r hr q hq hrw hqw => ?unique⟩
  case row =>
    obtain ⟨hwf, rfl⟩ := encodes_of_decode h
    obtain ⟨r, hr, hn, hm⟩ := rowMatch i hwf
    exact ⟨r, hr, hn, of_decide_eq_true hm⟩
  case unique =>
    obtain ⟨i, hi, hin⟩ := opcodeTable_decode r hr w hrw
    obtain ⟨j, hj, hjn⟩ := opcodeTable_decode q hq w hqw
    obtain rfl : i = j := Except.ok.inj (hi.symm.trans hj)
    exact List.inj_on_of_nodup_map opcodeTable_mnemonics_nodup hr hq (hin.symm.trans hjn)

-- The unused encodings (rules R71, R72, R85).

/-- `w` decodes to nothing. -/
def Undecodable (w : Word) : Prop := ∀ i, decode w ≠ .ok i

section
variable {w : Word}

/-- A word under an unused major opcode. -/
theorem undecodable_of_unused_opcode (h : opcodeOf w ∉ [0b0000011#7, 0b0001111#7, 0b0010011#7, 0b0010111#7, 0b0100011#7,
    0b0110011#7, 0b0110111#7, 0b1010011#7, 0b1100011#7, 0b1100111#7, 0b1101111#7, 0b1110011#7]) : Undecodable w := by
  intro i hi
  unfold decode at hi
  split at hi
  case h_13 => split at hi <;> cases hi
  all_goals
    next ho => simp [ho] at h

/-- The low two bits of every used major opcode are 11 (rule R85). -/
theorem undecodable_of_low_bits (h : w.extractLsb' 0 2 ≠ 0b11#2) : Undecodable w := by
  refine undecodable_of_unused_opcode fun hm => h ?_
  rw [← slice_slice w 0 7 0 2 (by decide), ← opcodeOf]
  exact (by decide : ∀ op ∈ [0b0000011#7, 0b0001111#7, 0b0010011#7, 0b0010111#7, 0b0100011#7, 0b0110011#7, 0b0110111#7,
    0b1010011#7, 0b1100011#7, 0b1100111#7, 0b1101111#7, 0b1110011#7], op.extractLsb' 0 2 = 0b11#2) _ hm

theorem undecodable_load (ho : opcodeOf w = 0b0000011#7)
    (h3 : funct3Of w = 0b011#3 ∨ funct3Of w = 0b110#3 ∨ funct3Of w = 0b111#3) : Undecodable w := by
  intro i
  rw [decode_of_load ho]
  rcases h3 with h3 | h3 | h3 <;> simp [decodeLoad, h3]

theorem undecodable_store (ho : opcodeOf w = 0b0100011#7) (h3 : 3 ≤ (funct3Of w).toNat) : Undecodable w := by
  intro i hi
  rw [decode_of_store ho, decodeStore] at hi
  split at hi
  case h_4 => cases hi
  all_goals
    next h => simp [h] at h3

theorem undecodable_branch (ho : opcodeOf w = 0b1100011#7) (h3 : funct3Of w = 0b010#3 ∨ funct3Of w = 0b011#3) :
    Undecodable w := by
  intro i
  rw [decode_of_branch ho]
  rcases h3 with h3 | h3 <;> simp [decodeBranch, h3]

theorem undecodable_jalr (ho : opcodeOf w = 0b1100111#7) (h3 : funct3Of w ≠ 0b000#3) : Undecodable w := by
  have he : decode w = .error .unusedFunction := by simp only [decode, ho]
  exact fun i hi => nomatch he.symm.trans hi

theorem undecodable_fence (ho : opcodeOf w = 0b0001111#7) (h3 : funct3Of w ≠ 0b000#3) : Undecodable w := by
  have he : decode w = .error .unusedFunction := by simp only [decode, ho]
  exact fun i hi => nomatch he.symm.trans hi

theorem undecodable_op (ho : opcodeOf w = 0b0110011#7) (h7 : funct7Of w ≠ 0b0000000#7)
    (h : ¬ (funct7Of w = 0b0100000#7 ∧ (funct3Of w = 0b000#3 ∨ funct3Of w = 0b101#3))) : Undecodable w := by
  intro i hi
  rw [decode_of_op ho, decodeOp] at hi
  split at hi
  case h_2 h7' h3' => exact h ⟨h7', .inl h3'⟩
  case h_8 h7' h3' => exact h ⟨h7', .inr h3'⟩
  case h_11 => cases hi
  all_goals exact absurd ‹funct7Of w = 0b0000000#7› h7

/-- An OP-FP word that decodes passes the test of one of the two rows. -/
theorem undecodable_opFp (ho : opcodeOf w = 0b1010011#7) (hx : w &&& 0xFFF0707F#32 ≠ 0xE0000053#32)
    (hw : w &&& 0xFFF0707F#32 ≠ 0xF0000053#32) : Undecodable w := by
  intro i hi
  have hm : w &&& 0xFFF0707F#32 = encodeR (funct7Of w) (rs2Of w) 0 (funct3Of w) 0 (opcodeOf w) := by
    rw [← mask_fp _ _ (rs1Of w) _ (rdOf w), encodeR_fields]
  rw [decode_of_opFp ho, decodeOpFp] at hi
  split at hi
  · next h7 h2 h3 => exact hx (by rw [hm, h7, h2, h3, ho]; rfl)
  · next h7 h2 h3 => exact hw (by rw [hm, h7, h2, h3, ho]; rfl)
  · cases hi

theorem undecodable_system (ho : opcodeOf w = 0b1110011#7) (hc : w ≠ 0x00000073#32) (hb : w ≠ 0x00100073#32) :
    Undecodable w := by
  intro i
  rw [decode_of_system ho, decodeSystem, if_neg hc, if_neg hb]
  simp

end

/-- A statement whose word does not decode ends the step as an illegal instruction (rule R186). -/
theorem step_of_undecodable {s : State} {st : Statement} (hs : fetchStatement s = some st) (h : Undecodable st.code) :
    step s = .fault (.illegalInstruction s.pc st.code) := by
  cases hd : decode st.code with
  | ok i => exact absurd hd (h i)
  | error e => simp only [step, fetchInstr, hs, hd, raise]

/-- Settles O5: a word of each listed encoding decodes to nothing. -/
theorem unusedEncodingsFaultAsIllegal : Obligations.UnusedEncodingsFaultAsIllegal := by
  intro s st hs w op funct3 funct7 h
  refine step_of_undecodable hs ?_
  obtain h | h | h | ⟨ho, h⟩ | ⟨ho, h⟩ | ⟨ho, h⟩ | ⟨ho, h⟩ | ⟨ho, h⟩ | ⟨ho, h7, h⟩ | ⟨ho, hx, hw⟩ | ⟨ho, hc, hb⟩ | h := h
  · exact undecodable_of_low_bits h
  · exact undecodable_of_low_bits (by rw [show st.code = _ from h]; decide)
  · exact undecodable_of_unused_opcode (by rw [show st.code = _ from h]; decide)
  · exact undecodable_load ho h
  · exact undecodable_store ho h
  · exact undecodable_branch ho h
  · exact undecodable_jalr ho h
  · exact undecodable_fence ho h
  · exact undecodable_op ho h7 h
  · exact undecodable_opFp ho hx hw
  · exact undecodable_system ho hc hb
  · exact undecodable_of_unused_opcode h

end Sys2Proof.Laws

/-! PROOFS. Whole-machine rules: what a step answers, which accesses stay in one region, the invariant that every step keeps, and
that the float file is read by `fmv.x.w` alone (10_state.md, 20_memory.md sections 3 to 6, 60_exceptions.md sections 1 and 2). -/

namespace Sys2Proof.Machine

-- The fetch (60_exceptions.md rules R181, R185, R186).

/-- Everything the fetch of an instruction can answer. -/
theorem fetchInstr_cases (s : State) :
    (fetchStatement s = none ∧ fetchInstr s = .error (.fetchFault s.pc)) ∨
    ∃ st, fetchStatement s = some st ∧
      ((∃ e, decode st.code = .error e ∧ fetchInstr s = .error (.illegalInstruction s.pc st.code)) ∨
        ∃ i, decode st.code = .ok i ∧ fetchInstr s = .ok i) := by
  unfold fetchInstr
  cases hf : fetchStatement s with
  | none => exact .inl ⟨rfl, rfl⟩
  | some st =>
    refine .inr ⟨st, rfl, ?_⟩
    cases hd : decode st.code with
    | error e => exact .inl ⟨e, rfl, by simp only [hd]⟩
    | ok i => exact .inr ⟨i, rfl, by simp only [hd]⟩

theorem statementAt_eq_none {program : List Statement} {a : Word} (h : ∀ st ∈ program, st.address ≠ a) :
    statementAt program a = none :=
  List.find?_eq_none.2 fun st hst => by simpa using h st hst

/-- In a program with one statement per address, the statement at an address is the one that has it. -/
theorem statementAt_of_mem {program : List Statement} {st : Statement} (hst : st ∈ program)
    (hp : program.Pairwise (fun a b => a.address ≠ b.address)) : statementAt program st.address = some st := by
  induction program with
  | nil => cases hst
  | cons u us ih =>
    obtain ⟨hu, hus⟩ := List.pairwise_cons.1 hp
    rcases List.mem_cons.1 hst with rfl | hmem
    · exact List.find?_cons_of_pos (by simp)
    · exact (List.find?_cons_of_neg (by simpa using hu st hmem)).trans (ih hmem hus)

theorem step_of_fetchInstr {s : State} {i : Instr} (h : fetchInstr s = .ok i) : step s = exec i s := by
  simp only [step, h]

theorem fetchInstr_of_decode {s : State} {st : Statement} {i : Instr} (hs : fetchStatement s = some st)
    (hd : decode st.code = .ok i) : fetchInstr s = .ok i := by
  simp only [fetchInstr, hs, hd]

/-- Settles O6: the statement fetched is the one of the program at `pc`, and its word alone is decoded. -/
theorem stepRunsTheDecodedInstruction : Obligations.StepRunsTheDecodedInstruction := by
  intro s
  refine ⟨fun h => step_of_fetchStatement_none (statementAt_eq_none h), fun st hst hpc hp => ?_⟩
  have hs : fetchStatement s = some st := by rw [fetchStatement, ← hpc, statementAt_of_mem hst hp]
  refine ⟨fun e he => ?_, fun i hi => step_of_fetchInstr (fetchInstr_of_decode hs hi)⟩
  exact Laws.step_of_undecodable hs fun i hi => nomatch he.symm.trans hi

/-- Settles O9: every statement of a linked program stands at a multiple of 4. -/
theorem misalignedPcIsAFetchFault : Obligations.MisalignedPcIsAFetchFault := by
  intro s ⟨hst, _, _⟩ hpc
  refine step_of_fetchStatement_none (statementAt_eq_none fun st hmem he => hpc ?_)
  obtain ⟨_, halign, _⟩ := hst st hmem
  rw [← he, halign]

-- Faults.

/-- Every fault that a step can answer: the two of the fetch, or one that an instruction raises at its own `pc`. -/
theorem step_fault_cases {s : State} {e : Fault} (h : step s = .fault e) :
    e = .fetchFault s.pc ∨
    (∃ st e', fetchStatement s = some st ∧ decode st.code = .error e' ∧ e = .illegalInstruction s.pc st.code) ∨
    (faultPc e = s.pc ∧ ∀ pc w, e ≠ .illegalInstruction pc w) := by
  rcases step_cases s with ⟨e', hf, hs⟩ | ⟨i, _, hs⟩
  · obtain rfl : e' = e := by simpa using hs.symm.trans h
    rcases fetchInstr_cases s with ⟨_, hc⟩ | ⟨st, hst, ⟨e, hd, hc⟩ | ⟨i, _, hc⟩⟩
    · exact .inl (Except.error.inj (hf.symm.trans hc))
    · exact .inr (.inl ⟨st, e, hst, hd, Except.error.inj (hf.symm.trans hc)⟩)
    · exact nomatch hf.symm.trans hc
  · rcases exec_outcomes i s with ⟨t, ht, _⟩ | ⟨e', he, hpc, hne⟩
    · exact nomatch (hs.trans ht).symm.trans h
    · obtain rfl : e' = e := by simpa using (hs.trans he).symm.trans h
      exact .inr (.inr ⟨hpc, hne⟩)

theorem faultPc_of_step {s : State} {e : Fault} (h : step s = .fault e) : faultPc e = s.pc := by
  rcases step_fault_cases h with rfl | ⟨_, _, _, _, rfl⟩ | ⟨hpc, _⟩
  · rfl
  · rfl
  · exact hpc

/-- A report to the host carries the `pc` of the instruction. -/
theorem report_pc_of_step {s t : State} (h : step s = .next t) :
    (∀ pc, t.report = .envCall pc → pc = s.pc) ∧ (∀ pc, t.report = .brk pc → pc = s.pc) := by
  obtain ⟨i, _, ef⟩ := step_effect h
  cases ef with
  | report w hw =>
    rcases hw with ⟨_, rfl⟩ | ⟨_, rfl⟩
    · exact ⟨fun pc hp => by simpa using hp.symm, fun pc hp => (nomatch hp)⟩
    · exact ⟨fun pc hp => (nomatch hp), fun pc hp => by simpa using hp.symm⟩
  | _ => exact ⟨fun pc hp => (nomatch hp), fun pc hp => (nomatch hp)⟩

/-- Settles O7, from what a step can answer: a fault of the fetch or of the instruction, or one of its effects. -/
theorem stepIsTotalAndOutcomesCarryThePc : Obligations.StepIsTotalAndOutcomesCarryThePc := fun s =>
  ⟨step_ne_refused s, fun _ h => faultPc_of_step h, fun _ h => ⟨step_report_ne_idle h, report_pc_of_step h⟩⟩

/-- Settles O8: a linked statement's word decodes, and no instruction answers an illegal instruction. -/
theorem linkedProgramsHaveNoIllegalInstruction : Obligations.LinkedProgramsHaveNoIllegalInstruction := by
  intro s pc w ⟨hlinked, _, _⟩ h
  rcases step_fault_cases h with he | ⟨st, e, hst, hd, _⟩ | ⟨_, hne⟩
  · exact nomatch he
  · obtain ⟨_, _, hm⟩ := hlinked st (List.mem_of_find?_eq_some hst)
    rw [hd] at hm
    exact nomatch hm
  · exact hne pc w rfl

/-- Settles O10, over the effects of the fetched instruction. -/
theorem pcAdvancesByFourUnlessTransferred : Obligations.PcAdvancesByFourUnlessTransferred := by
  intro s t i hi h
  have ef : Effect i s t := exec_effect ((step_of_fetchInstr hi).symm.trans h)
  cases ef with
  | writeX rd v target ws hs hf hpc hw he => exact ⟨hpc, fun hi => (hi.elim he.1 he.2).elim⟩
  | writeF fd v hs hf => exact ⟨fun _ => rfl, by rintro (rfl | rfl) <;> cases hf⟩
  | store a n v hs hf ha ht => exact ⟨fun _ => rfl, by rintro (rfl | rfl) <;> cases hs⟩
  | move target hs hf hpc he => exact ⟨hpc, fun hi => (hi.elim he.1 he.2).elim⟩
  | report w hw => exact ⟨by rcases hw with ⟨rfl, _⟩ | ⟨rfl, _⟩ <;> exact fun ht => (nomatch ht), fun _ => rfl⟩

-- Aligned accesses (20_memory.md section 5).

/-- An aligned access does not leave the block of 4 bytes that it starts in. -/
theorem aligned_access_same_block {a n k : Nat} (hn : n = 1 ∨ n = 2 ∨ n = 4) (ha : a % n = 0) (hk : k < n) :
    (a + k) / 4 = a / 4 := by
  rcases hn with rfl | rfl | rfl <;> omega

theorem widthBytes_cases (n : Width) : widthBytes n = 1 ∨ widthBytes n = 2 ∨ widthBytes n = 4 := by
  cases n <;> simp [widthBytes]

section
variable {p : Params} {a b : Word}

/-- A legal range holds all addresses of a block of 4 bytes or none. -/
theorem inRange_of_same_block {r : AddrRange} (hr : rangeWf r) (h : b.toNat / 4 = a.toNat / 4) :
    inRange r b = inRange r a := by
  obtain ⟨_, hb, hl⟩ := hr
  have h1 : r.base.toNat ≤ b.toNat ↔ r.base.toNat ≤ a.toNat := by omega
  have h2 : b.toNat ≤ r.limit.toNat ↔ a.toNat ≤ r.limit.toNat := by omega
  simp only [inRange, BitVec.le_def, h1, h2]

theorem regionOf_of_same_block (hp : layoutWf p) (h : b.toNat / 4 = a.toNat / 4) : regionOf p b = regionOf p a := by
  have hr : ∀ r ∈ allRanges p, inRange r b = inRange r a := fun r hm => inRange_of_same_block (hp.1 r hm) h
  simp only [allRanges, List.cons_append, List.nil_append, List.forall_mem_cons] at hr
  obtain ⟨ht, hd, hh, hs, hres⟩ := hr
  have hany : (p.reserved.any fun r => inRange r b) = p.reserved.any fun r => inRange r a := by
    rw [Bool.eq_iff_iff, List.any_eq_true, List.any_eq_true]
    exact exists_congr fun r => and_congr_right fun hm => by rw [hres r hm]
  simp only [regionOf, ht, hd, hh, hs, hany]

theorem aligned_access_toNat {n : Width} {k : Nat} (ha : a.toNat % widthBytes n = 0) (hk : k < widthBytes n) :
    (a + BitVec.ofNat 32 k).toNat = a.toNat + k := by
  have hblock := aligned_access_same_block (widthBytes_cases n) ha hk
  have hlt := a.isLt
  rw [BitVec.toNat_add, BitVec.toNat_ofNat]
  omega

theorem regionOf_aligned_access {n : Width} {k : Nat} (hp : layoutWf p) (ha : a.toNat % widthBytes n = 0)
    (hk : k < widthBytes n) : regionOf p (a + BitVec.ofNat 32 k) = regionOf p a := by
  refine regionOf_of_same_block hp ?_
  rw [aligned_access_toNat ha hk, aligned_access_same_block (widthBytes_cases n) ha hk]

end

/-- Settles O29: a legal range is made of blocks of 4 bytes, and an aligned access stays in one block. -/
theorem alignedAccessesStayInOneRegion : Obligations.AlignedAccessesStayInOneRegion := fun _ _ _ _ hp ha hk =>
  ⟨regionOf_aligned_access hp ha hk, aligned_access_toNat ha hk⟩

-- Memory, warnings and parameters over the effects of an instruction.

theorem sameMemory_of_not_store {i : Instr} {s t : State} (ef : Effect i s t) (hs : isStore i = false) :
    SameMemory s t := by
  cases ef with
  | writeX => exact sameMemory_of_writeX _ _ _ _ _
  | store a n v hs' => exact nomatch hs.symm.trans hs'
  | _ => exact fun _ => rfl

/-- An admitted store writes no byte that no store may write. -/
theorem readOnly_byte_of_admitted_store {s : State} {a b : Word} {n : Width} (v : BitVec n.bits) (hp : layoutWf s.params)
    (hm : Memory.wf s.mem) (ha : StoreAdmitted s a n) (hb : readOnlyAt s.params b = true) :
    readByte (writeBytes s.mem a n v) b = readByte s.mem b := by
  refine readByte_writeBytes_other _ _ _ _ _ hm fun k hk he => ?_
  have hr : storeAllowed s.params (regionOf s.params b) = true := by rw [he, regionOf_aligned_access hp ha.2 hk, ha.1]
  simp [readOnlyAt, hr] at hb

theorem readOnly_byte_of_effect {i : Instr} {s t : State} (ef : Effect i s t) (hp : layoutWf s.params)
    (hm : Memory.wf s.mem) {a : Word} (ha : readOnlyAt s.params a = true) : byteAt t a = byteAt s a := by
  cases hs : isStore i with
  | false => exact sameMemory_of_not_store ef hs a
  | true =>
    cases ef with
    | store b n v _ _ hb => exact readOnly_byte_of_admitted_store v hp hm hb ha
    | writeX rd v target ws hs' => exact nomatch hs.symm.trans hs'
    | writeF fd v hs' => exact nomatch hs.symm.trans hs'
    | move target hs' => exact nomatch hs.symm.trans hs'
    | report w => rfl

theorem memory_wf_of_effect {i : Instr} {s t : State} (ef : Effect i s t) (hm : Memory.wf s.mem) : Memory.wf t.mem := by
  cases ef with
  | store a n v => exact writeBytes_wf _ _ _ _ hm
  | _ => simpa using hm

theorem warnings_of_effect {i : Instr} {s t : State} (ef : Effect i s t) :
    reportWarnings t.report = [] ∨
    (isLoad i = true ∧ ∃ a, regionOf s.params a = .reserved ∧ t.report = .retired [.reservedRead a]) := by
  cases ef with
  | writeX rd v target ws hs hf hpc hw he =>
    rcases hw with rfl | ⟨hl, a, ha, rfl⟩
    · exact .inl rfl
    · exact .inr ⟨hl, a, ha, rfl⟩
  | report w hw => rcases hw with ⟨_, rfl⟩ | ⟨_, rfl⟩ <;> exact .inl rfl
  | _ => exact .inl rfl

/-- Settles O23, over the effects of an instruction. -/
theorem warningsComeFromReservedLoadsOnly : Obligations.WarningsComeFromReservedLoadsOnly := fun _ _ _ h =>
  warnings_of_effect (exec_effect h)

/-- Settles O46: a store that completes was admitted, and its bytes lie in one region. -/
theorem onlyStoresChangeMemory : Obligations.OnlyStoresChangeMemory := fun _ _ _ h =>
  ⟨sameMemory_of_not_store (exec_effect h), fun hp hm _ ha => readOnly_byte_of_effect (exec_effect h) hp hm ha⟩

/-- Settles O45: the program store is a parameter, and no effect changes one. -/
theorem stepKeepsTheParametersAndTheProgram : Obligations.StepKeepsTheParametersAndTheProgram := fun s t h =>
  ⟨step_params h, fun pc => by rw [step_params h]⟩

/-- Settles O43, field by field of the invariant, over the effects of the instruction that the step fetched. -/
theorem stepKeepsTheInvariant : Obligations.StepKeepsTheInvariant := by
  intro s t ⟨hparams, hmem, hro, _⟩ h
  have hp := step_params h
  obtain ⟨i, _, ef⟩ := step_effect h
  refine ⟨hp ▸ hparams, memory_wf_of_effect ef hmem, fun a ha => ?readOnly, ?warnings⟩
  case readOnly =>
    rw [hp] at ha ⊢
    exact (readOnly_byte_of_effect ef hparams.1 hmem ha).trans (hro a ha)
  case warnings =>
    rcases warnings_of_effect ef with hw | ⟨_, a, _, hw⟩
    · simp [hw]
    · simp [hw, reportWarnings]

-- Reset (70_reset_and_hazards.md section 1).

theorem ofParams_inv {p : Params} (hp : paramsWf p) : (State.ofParams p).Inv where
  params := hp
  memory := hp.2.1
  readOnly _ _ := rfl
  warnings := Nat.zero_le 1

/-- Settles O44: the reset state's memory is `MEM_INIT`, and the model's own parameters are legal. -/
theorem resetMeetsTheInvariant : Obligations.ResetMeetsTheInvariant :=
  ⟨fun _ hp => ofParams_inv hp, ofParams_inv (by decide)⟩

/-- Settles O47, field by field. -/
theorem resetRestoresTheInitialValues : Obligations.ResetRestoresTheInitialValues := fun s =>
  ⟨readX_zero _, fun k h => readX_ofNat_succ (resetBlock s) k h, resetBlock_pc s, fun _ => rfl, fun _ => rfl,
    resetBlock_params s⟩

theorem reachesIn_params {n : Nat} {s t : State} (h : ReachesIn n s t) : t.params = s.params := by
  induction n generalizing s with
  | zero => rw [show t = s from h]
  | succ n ih =>
    obtain ⟨u, hu, ht⟩ := h
    exact (ih ht).trans (step_params hu)

/-- Settles O48: reset depends on the parameters alone, which no step changes. -/
theorem resetAfterARunIsResetBeforeIt : Obligations.ResetAfterARunIsResetBeforeIt := fun n s t h => by
  rw [resetBlock, resetBlock, reachesIn_params h]

-- The float file (10_state.md section 3).

/-- Settles O12, from the laws of one write and because the two files are fields of their own. -/
theorem floatRegisterFileLaws : Obligations.FloatRegisterFileLaws := by
  intro s r q v
  refine ⟨?_, writeF_readX s r v, fun x => writeX_readF s x v q⟩
  split
  · next h => rw [h, readF_writeF_same]
  · next h => exact readF_writeF_other s r q v h

/-- Settles O38, over the effects of an instruction. -/
theorem onlyFmvWXWritesTheFloatFile : Obligations.OnlyFmvWXWritesTheFloatFile := by
  intro s t i hi h
  cases exec_effect h with
  | writeX => exact sameF_of_writeX _ _ _ _ _
  | writeF fd v hs hf => exact nomatch hi.symm.trans hf
  | _ => exact fun _ => rfl

end Sys2Proof.Machine

/-! PROOFS. The float file influences no instruction but `fmv.x.w` (10_state.md section 3): two states that agree on everything
else go on agreeing, one lemma for each shape of instruction. -/

namespace Sys2Proof.Machine

/-- The same fault, or next states that agree on everything but the float file. -/
def OutcomesAgree (o o' : Host.Outcome State Fault Refusal) : Prop :=
  (∀ e, o = .fault e → o' = .fault e) ∧ (∀ t, o = .next t → ∃ t', o' = .next t' ∧ AgreeButF t t')

theorem outcomesAgree_next {t t' : State} (h : AgreeButF t t') : OutcomesAgree (.next t) (.next t') :=
  ⟨fun _ he => (nomatch he), fun u hu => ⟨t', rfl, by cases hu; exact h⟩⟩

theorem outcomesAgree_raise (e : Fault) : OutcomesAgree (raise e) (raise e) := ⟨fun _ he => he, fun _ ht => nomatch ht⟩

section
variable {s s' : State} (h : AgreeButF s s')
include h

-- What such states read alike, and the updates that keep them agreeing.

theorem AgreeButF.readX (r : XReg) : s.readX r = s'.readX r := by simp only [State.readX, h.x]

theorem AgreeButF.effectiveAddr (rs1 : XReg) (imm : BitVec 12) : effectiveAddr s rs1 imm = effectiveAddr s' rs1 imm := by
  simp only [Machine.effectiveAddr, h.readX]

theorem AgreeButF.memRead (a : Word) (n : Width) : memRead s a n = memRead s' a n := by
  simp only [Machine.memRead, checkLoad, h.params, h.pc, h.mem]

theorem AgreeButF.checkStore (a : Word) (n : Width) : checkStore s a n = checkStore s' a n := by
  simp only [Machine.checkStore, h.params, h.pc]

theorem AgreeButF.writeX (r : XReg) (v : Word) : AgreeButF (s.writeX r v) (s'.writeX r v) where
  x := by
    unfold State.writeX
    split
    · exact h.x
    · simp only [h.x]
  pc := by simpa using h.pc
  mem := by simpa using h.mem
  params := by simpa using h.params
  report := by simpa using h.report

theorem AgreeButF.writeF (r : FReg) (v : Word) : AgreeButF (s.writeF r v) (s'.writeF r v) where
  x := h.x
  pc := h.pc
  mem := h.mem
  params := h.params
  report := h.report

theorem AgreeButF.setReport (r : Report) : AgreeButF (s.setReport r) (s'.setReport r) where
  x := h.x
  pc := h.pc
  mem := h.mem
  params := h.params
  report := rfl

theorem AgreeButF.setPc (target : Word) : AgreeButF (s.setPc target) (s'.setPc target) where
  x := h.x
  pc := rfl
  mem := h.mem
  params := h.params
  report := h.report

theorem AgreeButF.setMem (m : Memory) : AgreeButF { s with mem := m } { s' with mem := m } where
  x := h.x
  pc := h.pc
  mem := rfl
  params := h.params
  report := h.report

-- The shapes of instructions.

theorem AgreeButF.retireAt (target : Word) (ws : List Warning) :
    OutcomesAgree (retireAt target ws s) (retireAt target ws s') := outcomesAgree_next ((h.setPc target).setReport _)

theorem AgreeButF.retireNext (ws : List Warning) : OutcomesAgree (retireNext ws s) (retireNext ws s') := by
  rw [Machine.retireNext, Machine.retireNext, h.pc]
  exact h.retireAt _ ws

theorem AgreeButF.computeRR (op : Word → Word → Word) (rd rs1 rs2 : XReg) :
    OutcomesAgree (computeRR op rd rs1 rs2 s) (computeRR op rd rs1 rs2 s') := by
  simp only [Machine.computeRR, h.readX]
  exact (h.writeX rd _).retireNext []

theorem AgreeButF.computeRI (op : Word → Word → Word) (rd rs1 : XReg) (imm : BitVec 12) :
    OutcomesAgree (computeRI op rd rs1 imm s) (computeRI op rd rs1 imm s') := by
  simp only [Machine.computeRI, h.readX]
  exact (h.writeX rd _).retireNext []

theorem AgreeButF.computeShift (op : Word → BitVec 5 → Word) (rd rs1 : XReg) (imm : BitVec 12) :
    OutcomesAgree (computeShift op rd rs1 imm s) (computeShift op rd rs1 imm s') := by
  simp only [Machine.computeShift, h.readX]
  exact (h.writeX rd _).retireNext []

theorem AgreeButF.loadInto (n : Width) (ext : BitVec n.bits → Word) (rd rs1 : XReg) (imm : BitVec 12) :
    OutcomesAgree (loadInto n ext rd rs1 imm s) (loadInto n ext rd rs1 imm s') := by
  rw [Machine.loadInto, Machine.loadInto, h.effectiveAddr, h.memRead]
  cases Machine.memRead s' (Machine.effectiveAddr s' rs1 imm) n with
  | error e => exact outcomesAgree_raise e
  | ok r => exact (h.writeX rd _).retireNext _

theorem AgreeButF.storeFrom (n : Width) (rs1 rs2 : XReg) (imm : BitVec 12) :
    OutcomesAgree (storeFrom n rs1 rs2 imm s) (storeFrom n rs1 rs2 imm s') := by
  rw [Machine.storeFrom, Machine.storeFrom, memWrite, memWrite, h.effectiveAddr, h.checkStore, h.readX, h.mem]
  cases Machine.checkStore s' (Machine.effectiveAddr s' rs1 imm) n with
  | error e => exact outcomesAgree_raise e
  | ok r => exact (h.setMem _).retireNext []

theorem AgreeButF.branchIf (c : Word → Word → Bool) (rs1 rs2 : XReg) (off : BitVec 13) :
    OutcomesAgree (branchIf c rs1 rs2 off s) (branchIf c rs1 rs2 off s') := by
  rw [Machine.branchIf, Machine.branchIf, h.readX, h.readX, h.pc]
  split
  · exact h.retireAt _ []
  · exact h.retireNext []

theorem AgreeButF.reportToHost (r : Report) : OutcomesAgree (reportToHost r s) (reportToHost r s') :=
  outcomesAgree_next (h.setReport r)

/-- Every instruction but `fmv.x.w` answers alike. -/
theorem AgreeButF.exec {i : Instr} (hi : readsFloat i = false) : OutcomesAgree (exec i s) (exec i s') := by
  cases i
  case fmvXW => exact nomatch hi
  case add | sub | sll | slt | sltu | xor | srl | sra | or | and =>
    simp only [Machine.exec, execAdd, execSub, execSll, execSlt, execSltu, execXor, execSrl, execSra, execOr, execAnd]
    exact h.computeRR _ _ _ _
  case addi | slti | sltiu | xori | ori | andi =>
    simp only [Machine.exec, execAddi, execSlti, execSltiu, execXori, execOri, execAndi]
    exact h.computeRI _ _ _ _
  case slli | srli | srai =>
    simp only [Machine.exec, execSlli, execSrli, execSrai]
    exact h.computeShift _ _ _ _
  case lb | lh | lw | lbu | lhu =>
    simp only [Machine.exec, execLb, execLh, execLw, execLbu, execLhu]
    exact h.loadInto _ _ _ _ _
  case sb | sh | sw =>
    simp only [Machine.exec, execSb, execSh, execSw]
    exact h.storeFrom _ _ _ _
  case beq | bne | blt | bge | bltu | bgeu =>
    simp only [Machine.exec, execBeq, execBne, execBlt, execBge, execBltu, execBgeu]
    exact h.branchIf _ _ _ _
  case lui => exact (h.writeX _ _).retireNext []
  case auipc =>
    simp only [Machine.exec, execAuipc, h.pc]
    exact (h.writeX _ _).retireNext []
  case jal =>
    simp only [Machine.exec, execJal, h.pc]
    exact (h.writeX _ _).retireAt _ []
  case jalr =>
    simp only [Machine.exec, execJalr, h.pc, h.readX]
    exact (h.writeX _ _).retireAt _ []
  case fmvWX =>
    simp only [Machine.exec, execFmvWX, h.readX]
    exact (h.writeF _ _).retireNext []
  case fence => exact h.retireNext []
  case ecall =>
    simp only [Machine.exec, execEcall, h.pc]
    exact h.reportToHost _
  case ebreak =>
    simp only [Machine.exec, execEbreak, h.pc]
    exact h.reportToHost _

end

/-- Settles O39, by the shape of the instruction. -/
theorem onlyFmvXWReadsTheFloatFile : Obligations.OnlyFmvXWReadsTheFloatFile := fun _ _ _ h hi => h.exec hi

end Sys2Proof.Machine

/-! PROOFS. The host of the block: `continue` pass by pass, the breakpoint map over every command, `!`, and the start of a session
(60_exceptions.md section 7). -/

namespace Sys2Proof.Machine

-- One pass of `continue` (rule R202), one equation for each way it can go.

section
variable (host : HostEcall) (n : Nat) (d : Session) (ms : List Message)

theorem hostContinue_of_no_statement (hf : fetchStatement d.core = none) : hostContinue host (n + 1) d ms =
    ({ d with status := .awaitingCommand }, ms ++ [.fault (.fetchFault d.core.pc)]) := by
  simp [hostContinue, hf]

theorem hostContinue_of_armed {st : Statement} (hf : fetchStatement d.core = some st)
    (ha : bpFlag d.bp d.core.pc = some .armed) : hostContinue host (n + 1) d ms =
    ({ d with bp := bpSetFlag d.bp d.core.pc .disarmed, status := .halted d.core.pc }, ms ++ [.stoppedAt d.core.pc]) := by
  simp [hostContinue, hf, ha]

section
variable {st : Statement} (hf : fetchStatement d.core = some st) (ha : bpFlag d.bp d.core.pc ≠ some .armed)
include hf ha

theorem hostContinue_of_fault {e : Fault} (hs : step d.core = .fault e) : hostContinue host (n + 1) d ms =
    ({ d with bp := rearmAt d.bp d.core.pc, status := .awaitingCommand }, ms ++ [.fault e]) := by
  simp [hostContinue, hf, ha, hs]

variable {t : State} (hs : step d.core = .next t)
include hs

theorem hostContinue_of_brk {pc : Word} (hr : t.report = .brk pc) : hostContinue host (n + 1) d ms =
    ({ d with core := t, bp := rearmAt d.bp d.core.pc, status := .awaitingCommand }, ms ++ [.breakInstr pc]) := by
  simp [hostContinue, hf, ha, hs, hr]

theorem hostContinue_of_exit {pc : Word} (hr : t.report = .envCall pc) (hh : host t = .exit) :
    hostContinue host (n + 1) d ms =
    ({ d with core := t, bp := rearmAt d.bp d.core.pc, status := .programExited }, ms ++ [.programExit pc]) := by
  simp [hostContinue, hf, ha, hs, hr, hh]

theorem hostContinue_of_resume {pc : Word} {s' : State} (hr : t.report = .envCall pc) (hh : host t = .resume s') :
    hostContinue host (n + 1) d ms =
    hostContinue host n { d with core := resumeWith t s', bp := rearmAt d.bp d.core.pc } ms := by
  simp [hostContinue, hf, ha, hs, hr, hh]

theorem hostContinue_of_retired {ws : List Warning} (hr : t.report = .retired ws) : hostContinue host (n + 1) d ms =
    hostContinue host n { d with core := t, bp := rearmAt d.bp d.core.pc } (ms ++ ws.map Message.warning) := by
  simp [hostContinue, hf, ha, hs, hr]

end
end

theorem fetchStatement_of_next {s t : State} (h : step s = .next t) : ∃ st, fetchStatement s = some st := by
  cases hf : fetchStatement s with
  | none => exact nomatch (step_of_fetchStatement_none hf).symm.trans h
  | some st => exact ⟨st, rfl⟩

/-- How one pass of `continue` goes from a block and a breakpoint map, whatever else the session holds: it stops, or it goes on
with another block; the map stays legal. -/
inductive Pass (host : HostEcall) (s : State) (bp : BpMap) : Prop where
  | stops (t : State) (bp' : BpMap) (st : Status) (shown : List Message) (hst : st ≠ .running)
      (hbp : ∀ p, bpWf p bp → bpWf p bp')
      (h : ∀ n prev st₀ sy ms, hostContinue host (n + 1) ⟨s, bp, prev, st₀, sy⟩ ms = (⟨t, bp', prev, st, sy⟩, ms ++ shown))
  | goesOn (t : State) (bp' : BpMap) (shown : List Message) (hbp : ∀ p, bpWf p bp → bpWf p bp')
      (h : ∀ n prev st₀ sy ms, hostContinue host (n + 1) ⟨s, bp, prev, st₀, sy⟩ ms =
        hostContinue host n ⟨t, bp', prev, st₀, sy⟩ (ms ++ shown))

/-- Every pass is one of the two. -/
theorem pass (host : HostEcall) (s : State) (bp : BpMap) : Pass host s bp := by
  have hrearm : ∀ p, bpWf p bp → bpWf p (rearmAt bp s.pc) := fun _ => bpWf_rearmAt _
  cases hf : fetchStatement s with
  | none =>
    exact .stops s bp .awaitingCommand [.fault (.fetchFault s.pc)] (by simp) (fun _ => id)
      fun n prev st₀ sy ms => hostContinue_of_no_statement host n ⟨s, bp, prev, st₀, sy⟩ ms hf
  | some st =>
    by_cases ha : bpFlag bp s.pc = some .armed
    · exact .stops s (bpSetFlag bp s.pc .disarmed) (.halted s.pc) [.stoppedAt s.pc] (by simp)
        (fun _ => bpWf_bpSetFlag _ _)
        fun n prev st₀ sy ms => hostContinue_of_armed host n ⟨s, bp, prev, st₀, sy⟩ ms hf ha
    cases hs : step s with
    | refused r => exact absurd hs (step_ne_refused s r)
    | fault e =>
      exact .stops s (rearmAt bp s.pc) .awaitingCommand [.fault e] (by simp) hrearm
        fun n prev st₀ sy ms => hostContinue_of_fault host n ⟨s, bp, prev, st₀, sy⟩ ms hf ha hs
    | next t =>
      cases hr : t.report with
      | idle => exact absurd hr (step_report_ne_idle hs)
      | brk pc =>
        exact .stops t (rearmAt bp s.pc) .awaitingCommand [.breakInstr pc] (by simp) hrearm
          fun n prev st₀ sy ms => hostContinue_of_brk host n ⟨s, bp, prev, st₀, sy⟩ ms hf ha hs hr
      | retired ws =>
        exact .goesOn t (rearmAt bp s.pc) (ws.map Message.warning) hrearm
          fun n prev st₀ sy ms => hostContinue_of_retired host n ⟨s, bp, prev, st₀, sy⟩ ms hf ha hs hr
      | envCall pc =>
        cases hh : host t with
        | exit =>
          exact .stops t (rearmAt bp s.pc) .programExited [.programExit pc] (by simp) hrearm
            fun n prev st₀ sy ms => hostContinue_of_exit host n ⟨s, bp, prev, st₀, sy⟩ ms hf ha hs hr hh
        | resume s' =>
          exact .goesOn (resumeWith t s') (rearmAt bp s.pc) [] hrearm fun n prev st₀ sy ms => by
            rw [List.append_nil]
            exact hostContinue_of_resume host n ⟨s, bp, prev, st₀, sy⟩ ms hf ha hs hr hh

-- The breakpoint map stays legal.

theorem bpWf_nil (p : Params) : bpWf p [] := ⟨List.Pairwise.nil, fun _ he => nomatch he⟩

theorem bpWf_hostContinue {p : Params} (host : HostEcall) (n : Nat) (d : Session) (ms : List Message) (h : bpWf p d.bp) :
    bpWf p (hostContinue host n d ms).1.bp := by
  induction n generalizing d ms with
  | zero => exact h
  | succ n ih =>
    obtain ⟨s, bp, prev, st₀, sy⟩ := d
    cases pass host s bp with
    | stops t bp' st shown _ hbp he => rw [he]; exact hbp p h
    | goesOn t bp' shown hbp he => rw [he]; exact ih _ _ (hbp p h)

theorem bpWf_hostStep {p : Params} (host : HostEcall) (d : Session) (h : bpWf p d.bp) :
    bpWf p (hostStep host d).1.bp := by
  unfold hostStep
  split
  · exact h
  · exact h
  · split
    · exact h
    · split <;> exact h
    · exact bpWf_bpSetFlag _ _ h
    · exact bpWf_bpSetFlag _ _ h

theorem perform_breakpoint_of_legal (host : HostEcall) (fuel : Nat) {d : Session} {a : Word}
    (h : bpLegal d.core.params a = true) :
    perform host fuel (.breakpoint (some a)) d = answer { d with bp := bpInsert d.bp a } [] := if_pos h

theorem perform_breakpoint_of_not_legal (host : HostEcall) (fuel : Nat) {d : Session} {a : Word}
    (h : ¬ bpLegal d.core.params a = true) : perform host fuel (.breakpoint (some a)) d = answer d [.rejected] := if_neg h

/-- From `d` to `e` the breakpoint map and the status alone changed, and the map stays legal. -/
def OnlyBreakpoints (d e : Session) : Prop :=
  ∃ bp st, e = { d with bp := bp, status := st } ∧ (bpWf d.core.params d.bp → bpWf d.core.params bp)

theorem onlyBreakpoints_of_answer {d : Session} {r : Session × List Message} (h : ∃ ms, r = answer d ms) :
    OnlyBreakpoints d r.1 := by
  obtain ⟨ms, rfl⟩ := h
  exact ⟨d.bp, .awaitingCommand, rfl, id⟩

/-- A command that neither executes statements nor resets changes breakpoints at most. -/
theorem perform_other (host : HostEcall) (fuel : Nat) {c : Command} (d : Session) (hs : c ≠ .step) (hc : c ≠ .continue)
    (hr : c ≠ .reset) : OnlyBreakpoints d (perform host fuel c d).1 := by
  cases c with
  | step => exact absurd rfl hs
  | reset => exact absurd rfl hr
  | breakpoint a =>
    cases a with
    | none => exact onlyBreakpoints_of_answer ⟨_, rfl⟩
    | some a =>
      by_cases ha : bpLegal d.core.params a = true
      · exact ⟨_, _, by rw [perform_breakpoint_of_legal host fuel ha, answer], fun h => bpWf_bpInsert h ha⟩
      · exact onlyBreakpoints_of_answer ⟨_, perform_breakpoint_of_not_legal host fuel ha⟩
  | clear => exact ⟨[], _, rfl, fun _ => bpWf_nil _⟩
  | delete a =>
    cases a with
    | none => exact onlyBreakpoints_of_answer ⟨_, rfl⟩
    | some a =>
      by_cases ha : bpFlag d.bp a = none
      · exact onlyBreakpoints_of_answer ⟨_, perform_delete_of_absent host fuel ha⟩
      · exact ⟨_, _, by rw [perform_delete_of_present host fuel ha, answer], bpWf_bpRemove a⟩
  | print r => exact onlyBreakpoints_of_answer (perform_print_eq_answer host fuel d r)
  | memory a rows => exact onlyBreakpoints_of_answer (perform_memory_eq_answer host fuel d a rows)
  | locals file => exact onlyBreakpoints_of_answer (perform_locals_eq_answer host fuel d file)
  | exit => exact ⟨d.bp, _, rfl, id⟩
  | list | globals | showx | showf | again | help | badUsage | unknown => exact onlyBreakpoints_of_answer ⟨_, rfl⟩
  | _ => exact absurd rfl hc -- `continue`

theorem bpWf_perform (host : HostEcall) (fuel : Nat) (c : Command) (d : Session) (h : bpWf d.core.params d.bp) :
    bpWf d.core.params (perform host fuel c d).1.bp := by
  by_cases hs : c = .step
  · rw [hs]; exact bpWf_hostStep host d h
  by_cases hc : c = .continue
  · rw [hc]; exact bpWf_hostContinue host fuel d [] h
  by_cases hr : c = .reset
  · rw [hr, perform_reset]; exact h
  obtain ⟨bp, st, he, hbp⟩ := perform_other host fuel d hs hc hr
  rw [he]
  exact hbp h

/-- Legality under the session's own parameters, which no command changes. -/
theorem bpWf_invoke (host : HostEcall) (fuel : Nat) (i : Invocation) (d : Session) (h : bpWf d.core.params d.bp) :
    bpWf (invoke host fuel i d).1.core.params (invoke host fuel i d).1.bp := by
  have hp : (invoke host fuel i d).1.core.params = d.core.params := (perform_sameHost host fuel i.command d).params
  rw [hp]
  exact bpWf_perform host fuel i.command d h

-- What the loop makes of one invocation (rules R200, R212).

section
variable (host : HostEcall) (fuel : Nat) {d : Session} {i : Invocation}

theorem dispatch_of_not_awaiting (i : Invocation) (h : awaitsCommand d.status = false) : dispatch host fuel i d = (d, []) := by
  simp [dispatch, h]

theorem dispatch_of_ne_again (h : awaitsCommand d.status = true) (hi : i.command ≠ .again) :
    dispatch host fuel i d = ({ (invoke host fuel i d).1 with previous := some i }, (invoke host fuel i d).2) := by
  simp [dispatch, h, hi]

theorem dispatch_again_none (h : awaitsCommand d.status = true) (hi : i.command = .again) (hp : d.previous = none) :
    dispatch host fuel i d = answer d (extraWarning i ++ [.usageError]) := by
  simp [dispatch, h, hi, hp]

theorem dispatch_again_some {j : Invocation} (h : awaitsCommand d.status = true) (hi : i.command = .again)
    (hp : d.previous = some j) :
    dispatch host fuel i d = ((invoke host fuel j d).1, extraWarning i ++ (invoke host fuel j d).2) := by
  simp [dispatch, h, hi, hp]

end

/-- The session after an invocation is the old one, the answer to a `!` without a preceding command, or what some invocation
leaves, up to the recorded one. -/
theorem dispatch_cases (host : HostEcall) (fuel : Nat) (d : Session) (i : Invocation) :
    (dispatch host fuel i d).1 = d ∨
    (∃ ms, (dispatch host fuel i d).1 = (answer d ms).1) ∨
    (∃ j, i.command = .again ∧ (dispatch host fuel i d).1 = (invoke host fuel j d).1) ∨
    (dispatch host fuel i d).1 = { (invoke host fuel i d).1 with previous := some i } := by
  cases h : awaitsCommand d.status with
  | false => exact .inl (by rw [dispatch_of_not_awaiting host fuel i h])
  | true =>
    by_cases hi : i.command = .again
    · cases hp : d.previous with
      | none => exact .inr (.inl ⟨_, by rw [dispatch_again_none host fuel h hi hp]⟩)
      | some j => exact .inr (.inr (.inl ⟨j, hi, by rw [dispatch_again_some host fuel h hi hp]⟩))
    · exact .inr (.inr (.inr (by rw [dispatch_of_ne_again host fuel h hi])))

/-- Settles O57: each command and each pass of `continue` keeps the map legal, and none changes the parameters. -/
theorem commandsKeepTheBreakpointMapLegal : Obligations.CommandsKeepTheBreakpointMapLegal := by
  intro host fuel d h
  refine ⟨fun i => ?dispatch, ?resume⟩
  case dispatch =>
    rcases dispatch_cases host fuel d i with he | ⟨ms, he⟩ | ⟨j, _, he⟩ | he <;> rw [he]
    · exact h
    · exact h
    · exact bpWf_invoke host fuel j d h
    · exact bpWf_invoke host fuel i d h
  case resume =>
    unfold resumeRun
    split
    · rw [(hostContinue_sameHost host fuel d []).params]
      exact bpWf_hostContinue host fuel d [] h
    · exact h

/-- Settles O56: no command but the three changes the block, and no command at all the parameters or the symbol tables. -/
theorem hostChangesTheBlockOnlyBySteppingAndReset : Obligations.HostChangesTheBlockOnlyBySteppingAndReset := by
  intro host fuel d i
  have hinvoke : ∀ j, SameHost d (invoke host fuel j d).1 := fun j => perform_sameHost host fuel j.command d
  rcases dispatch_cases host fuel d i with he | ⟨ms, he⟩ | ⟨j, hj, he⟩ | he <;> rw [he]
  · exact ⟨rfl, rfl, fun _ _ _ _ => rfl⟩
  · exact ⟨rfl, rfl, fun _ _ _ _ => rfl⟩
  · exact ⟨(hinvoke j).params, (hinvoke j).symbols, fun _ _ _ ha => absurd hj ha⟩
  · refine ⟨(hinvoke i).params, (hinvoke i).symbols, fun hs hc hr _ => ?_⟩
    obtain ⟨bp, st, hp, _⟩ := perform_other host fuel d hs hc hr
    show (perform host fuel i.command d).1.core = d.core
    rw [hp]

/-- Settles O58: after the command the loop has recorded it, and a command leaves the record as it is. -/
theorem repeatRunsThePrecedingCommand : Obligations.RepeatRunsThePrecedingCommand := by
  intro host fuel d i hd hi d1 hd1
  have hprev : d1.previous = some i := congrArg (·.1.previous) (dispatch_of_ne_again host fuel hd hi)
  have hagain : dispatch host fuel ⟨.again, false⟩ d1 = invoke host fuel i d1 :=
    dispatch_again_some host fuel hd1 rfl hprev
  refine ⟨hagain, ?_⟩
  rw [hagain]
  exact (perform_sameHost host fuel i.command d1).previous.trans hprev

-- The commands `step` and `breakpoint` (rules R201, R206).

/-- Settles O51: a step that retires sets the flag of the old `pc`, and one that faults leaves the session but for its status. -/
theorem stepCommandExecutesAndRearms : Obligations.StepCommandExecutesAndRearms := by
  intro host d
  refine ⟨fun t ws hs hr => ?retired, fun e hs => ?fault⟩
  case retired =>
    have he : hostStep host d =
        ({ d with core := t, bp := bpSetFlag d.bp d.core.pc .armed, status := .stepped }, ws.map Message.warning) := by
      simp only [hostStep, hs, hr]
    rw [he]
    refine ⟨rfl, rfl, fun a => (bpFlag_bpSetFlag d.bp d.core.pc a .armed).trans ?_⟩
    by_cases ha : a = d.core.pc
    · rw [ha]
    · simp only [ha, false_and]
  case fault =>
    have he : hostStep host d = ({ d with status := .awaitingCommand }, [.fault e]) := by simp only [hostStep, hs]
    rw [he]
    exact ⟨rfl, rfl, rfl⟩

theorem isAligned_iff (a : Word) (n : Width) : isAligned a n = true ↔ a.toNat % widthBytes n = 0 := decide_eq_true_iff

/-- A legal target, in numbers. -/
theorem bpLegal_iff (p : Params) (a : Word) : bpLegal p a = true ↔
    a.toNat % 4 = 0 ∧ p.segments.text.base.toNat ≤ a.toNat ∧ a.toNat ≤ p.segments.text.limit.toNat := by
  rw [bpLegal, Bool.and_eq_true, isAligned_iff, inRange, Bool.and_eq_true, decide_eq_true_iff, decide_eq_true_iff]
  rfl

/-- Settles O52: the command's test is that of a legal target, in numbers. -/
theorem breakpointCommandInsertsOrRejects : Obligations.BreakpointCommandInsertsOrRejects := by
  intro host fuel d a hbp
  dsimp only
  by_cases ha : bpLegal d.core.params a = true
  · obtain ⟨halign, hbase, hlimit⟩ := (bpLegal_iff _ a).1 ha
    rw [perform_breakpoint_of_legal host fuel ha]
    exact ⟨rfl, fun h => by omega, fun _ b => bpFlag_bpInsert d.bp a b hbp.1, rfl⟩
  · rw [perform_breakpoint_of_not_legal host fuel ha]
    exact ⟨rfl, fun _ => ⟨rfl, rfl⟩, fun h => absurd ((bpLegal_iff _ a).2 h) ha, rfl⟩

-- The start of a session (rule R203).

section
variable {p : Params} {l : List Word} {bp : BpMap}

theorem bpWf_insertAll (hl : ∀ a ∈ l, bpLegal p a = true) (h : bpWf p bp) : bpWf p (l.foldl bpInsert bp) := by
  induction l generalizing bp with
  | nil => exact h
  | cons b l ih =>
    rw [List.forall_mem_cons] at hl
    exact ih hl.2 (bpWf_bpInsert h hl.1)

theorem bpFlag_insertAll (hl : ∀ a ∈ l, bpLegal p a = true) (h : bpWf p bp) (a : Word) :
    bpFlag (l.foldl bpInsert bp) a = if a ∈ l ∧ bpFlag bp a = none then some .armed else bpFlag bp a := by
  induction l generalizing bp with
  | nil => simp
  | cons b l ih =>
    rw [List.forall_mem_cons] at hl
    rw [List.foldl_cons, ih hl.2 (bpWf_bpInsert h hl.1), bpFlag_bpInsert bp b a h.1]
    by_cases hab : a = b
    · subst hab
      by_cases ha : bpFlag bp a = none <;> simp [ha]
    · simp [hab]

end

/-- Settles O59: the declared addresses that are legal targets are inserted one by one into the empty map. -/
theorem sessionsStartWithTheDeclaredBreakpointsArmed : Obligations.SessionsStartWithTheDeclaredBreakpointsArmed := by
  intro p declared symbols d
  have hl : ∀ a ∈ declared.filter (bpLegal p), bpLegal p a = true := fun a ha => (List.mem_filter.1 ha).2
  refine ⟨rfl, bpWf_insertAll hl (bpWf_nil p), fun a => (bpFlag_insertAll hl (bpWf_nil p) a).trans ?_⟩
  simp only [List.mem_filter, bpFlag_nil, and_true]

-- Runs of `continue` (rules R193, R202, R205).

/-- The messages before a `continue` stand before its own, and the status it is entered with does not matter. -/
theorem hostContinue_prefix (host : HostEcall) (n : Nat) (d : Session) (st : Status) (ms : List Message) :
    hostContinue host n d ms = ((hostContinue host n { d with status := st } []).1,
      ms ++ (hostContinue host n { d with status := st } []).2) := by
  induction n generalizing d ms with
  | zero => simp only [hostContinue, List.append_nil]
  | succ n ih =>
    obtain ⟨s, bp, prev, st₀, sy⟩ := d
    cases pass host s bp with
    | stops t bp' st' shown _ _ he => simp only [he, List.nil_append]
    | goesOn t bp' shown _ he =>
      have h0 := ih ⟨t, bp', prev, st₀, sy⟩ (ms ++ shown)
      have h1 := ih ⟨t, bp', prev, st, sy⟩ shown
      simp only [he, List.nil_append]
      rw [h0, h1]
      simp only [List.append_assoc]

/-- Cut after `n` passes, a `continue` is the same run. -/
theorem hostContinue_cut (host : HostEcall) (n m : Nat) (d : Session) (ms : List Message) :
    ((hostContinue host n d ms).1.status = .running →
      hostContinue host (n + m) d ms = ((resumeRun host m (hostContinue host n d ms).1).1,
        (hostContinue host n d ms).2 ++ (resumeRun host m (hostContinue host n d ms).1).2)) ∧
    ((hostContinue host n d ms).1.status ≠ .running → hostContinue host (n + m) d ms = hostContinue host n d ms) := by
  induction n generalizing d ms with
  | zero =>
    refine ⟨fun _ => ?_, fun h => absurd rfl h⟩
    rw [Nat.zero_add]
    exact hostContinue_prefix host m d .running ms
  | succ n ih =>
    obtain ⟨s, bp, prev, st₀, sy⟩ := d
    rw [Nat.add_right_comm]
    cases pass host s bp with
    | stops t bp' st shown hst _ he =>
      simp only [he]
      exact ⟨fun h => absurd h hst, fun _ => trivial⟩
    | goesOn t bp' shown _ he =>
      simp only [he]
      exact ih _ _

/-- Settles O60: a running session awaits no command, and the passes of a `continue` follow one another. -/
theorem continueIsNotInterruptible : Obligations.ContinueIsNotInterruptible := by
  intro host n m d ms
  refine ⟨fun hd => ?_, hostContinue_cut host n m d ms⟩
  have hawait : awaitsCommand d.status = false := by rw [hd]; rfl
  refine ⟨fun i => dispatch_of_not_awaiting host n i hawait, fun input => ?_⟩
  cases input with
  | failure => simp only [takeInput, hawait, Bool.false_eq_true, if_false]
  | line text =>
    unfold takeInput
    split
    · next h => cases h
    · split
      · rfl
      · exact dispatch_of_not_awaiting host n _ hawait

end Sys2Proof.Machine

/-! PROOFS. How `continue` ends without a breakpoint and at one (60_exceptions.md rules R202 to R205). -/

namespace Sys2Proof.Machine

-- The flags after one was set.

theorem bpFlag_bpSetFlag_same {bp : BpMap} {a : Word} (f : BpFlag) {g : BpFlag} (h : bpFlag bp a = some g) :
    bpFlag (bpSetFlag bp a f) a = some f := by simp [bpFlag_bpSetFlag, h]

theorem bpFlag_bpSetFlag_other (bp : BpMap) {a b : Word} (f : BpFlag) (h : b ≠ a) :
    bpFlag (bpSetFlag bp a f) b = bpFlag bp b := by simp [bpFlag_bpSetFlag, h]

/-- Settles O50: the first pass disarms and halts; the first pass after that re-arms and executes. -/
theorem breakpointRetriggerProtocol : Obligations.BreakpointRetriggerProtocol := by
  intro host n m d st hf ha d1
  have hd1 : d1 = { d with bp := bpSetFlag d.bp d.core.pc .disarmed, status := .halted d.core.pc } :=
    congrArg (·.1) (hostContinue_of_armed host n d [] hf ha)
  clear_value d1
  subst hd1
  have hdis : bpFlag (bpSetFlag d.bp d.core.pc .disarmed) d.core.pc = some .disarmed := bpFlag_bpSetFlag_same _ ha
  have hother : ∀ a, a ≠ d.core.pc → bpFlag (bpSetFlag d.bp d.core.pc .disarmed) a = bpFlag d.bp a :=
    fun a => bpFlag_bpSetFlag_other d.bp .disarmed
  refine ⟨rfl, rfl, hdis, hother, fun t ws hs hr => ⟨rearmAt (bpSetFlag d.bp d.core.pc .disarmed) d.core.pc, ?_, ?_, ?_⟩⟩
  · rw [rearmAt, if_pos hdis, bpFlag_bpSetFlag_same _ hdis]
  · intro a hne
    rw [rearmAt, if_pos hdis, bpFlag_bpSetFlag_other _ _ hne, hother a hne]
  · have hne : bpFlag (bpSetFlag d.bp d.core.pc .disarmed) d.core.pc ≠ some .armed := by simp only [hdis]; decide
    exact hostContinue_of_retired host m { d with bp := bpSetFlag d.bp d.core.pc .disarmed, status := .halted d.core.pc } []
      hf hne hs hr

-- Without breakpoints.

/-- The `pc` that a `Break` report carries is the one in the state. -/
theorem pc_of_brk {s t : State} {pc : Word} (h : step s = .next t) (hr : t.report = .brk pc) : t.pc = pc := by
  obtain ⟨i, _, ef⟩ := step_effect h
  cases ef with
  | report w hw =>
    rcases hw with ⟨_, rfl⟩ | ⟨_, rfl⟩
    · exact nomatch hr
    · simpa using hr
  | _ => exact nomatch hr

/-- A pass whose step faults, fetch fault or other, ends with that fault shown. -/
theorem hostContinue_of_step_fault (host : HostEcall) (n : Nat) {d : Session} (ms : List Message) {e : Fault}
    (ha : bpFlag d.bp d.core.pc ≠ some .armed) (hs : step d.core = .fault e) : ∃ bp,
    hostContinue host (n + 1) d ms = ({ d with bp := bp, status := .awaitingCommand }, ms ++ [.fault e]) := by
  cases hf : fetchStatement d.core with
  | none =>
    obtain rfl : Fault.fetchFault d.core.pc = e := by simpa using (step_of_fetchStatement_none hf).symm.trans hs
    exact ⟨d.bp, hostContinue_of_no_statement host n d ms hf⟩
  | some st => exact ⟨_, hostContinue_of_fault host n d ms hf ha hs⟩

/-- Settles O49, by induction on the passes, each of which is one step of the run. -/
theorem continueWithoutBreakpointsIsTheRun : Obligations.ContinueWithoutBreakpointsIsTheRun := by
  intro host n
  induction n with
  | zero => exact fun d ms _ => ⟨rfl, rfl⟩
  | succ n ih =>
    intro d ms hbp r
    have ha : bpFlag d.bp d.core.pc ≠ some .armed := by simp [hbp]
    have hrearm : rearmAt d.bp d.core.pc = [] := by rw [hbp]; rfl
    cases hs : step d.core with
    | refused q => exact absurd hs (step_ne_refused d.core q)
    | fault e =>
      obtain ⟨bp, he⟩ := hostContinue_of_step_fault host n ms ha hs
      simp only [r, runFor, hs, he, List.getLast?_concat, and_self]
    | next t =>
      obtain ⟨st, hf⟩ := fetchStatement_of_next hs
      cases hr : t.report with
      | idle => exact absurd hr (step_report_ne_idle hs)
      | brk pc =>
        have he := hostContinue_of_brk host n d ms hf ha hs hr
        simp only [r, runFor, hs, hr, he, List.getLast?_concat, pc_of_brk hs hr, and_self]
      | retired ws =>
        have he := hostContinue_of_retired host n d ms hf ha hs hr
        simp only [r, runFor, hs, hr, he]
        exact ih { d with core := t, bp := rearmAt d.bp d.core.pc } _ hrearm
      | envCall pc =>
        cases hh : host t with
        | exit =>
          have he := hostContinue_of_exit host n d ms hf ha hs hr hh
          simp only [r, runFor, hs, hr, hh, he, and_self]
        | resume s' =>
          have he := hostContinue_of_resume host n d ms hf ha hs hr hh
          simp only [r, runFor, hs, hr, hh, he]
          exact ih { d with core := resumeWith t s', bp := rearmAt d.bp d.core.pc } _ hrearm

end Sys2Proof.Machine

/-! PROOFS. The instructions that compute, branch, jump, move and report (40_r_type.md to 46_system.md): each word is the encoding
of its instruction, and each instruction completes with its result and nothing else changed. -/

namespace Sys2Proof.Machine

open Sys2Proof.Laws

-- The comparisons as statements about numbers (00_scope.md section 6).

theorem wordOfBool_eq {b : Bool} {P : Prop} [Decidable P] (h : b = true ↔ P) : wordOfBool b = if P then 1 else 0 := by
  by_cases hp : P
  · rw [if_pos hp, h.2 hp]; rfl
  · rw [if_neg hp, Bool.eq_false_iff.2 fun hb => hp (h.1 hb)]; rfl

theorem eqWord_iff (a b : Word) : eqWord a b = true ↔ a = b := beq_iff_eq

theorem neWord_iff (a b : Word) : neWord a b = true ↔ a ≠ b := by
  rw [neWord, Bool.not_eq_true', Bool.eq_false_iff, ne_eq, eqWord_iff]

theorem ltSigned_iff (a b : Word) : ltSigned a b = true ↔ a.toInt < b.toInt := BitVec.slt_iff_toInt_lt

theorem ltUnsigned_iff (a b : Word) : ltUnsigned a b = true ↔ a.toNat < b.toNat := BitVec.ult_iff_toNat_lt

theorem geSigned_iff (a b : Word) : geSigned a b = true ↔ b.toInt ≤ a.toInt := by
  rw [geSigned, Bool.not_eq_true', Bool.eq_false_iff, ne_eq, ltSigned_iff, Int.not_lt]

theorem geUnsigned_iff (a b : Word) : geUnsigned a b = true ↔ b.toNat ≤ a.toNat := by
  rw [geUnsigned, Bool.not_eq_true', Bool.eq_false_iff, ne_eq, ltUnsigned_iff, Nat.not_lt]

-- Register-register instructions (40_r_type.md).

theorem sub_toNat (a b : Word) : ((a - b).toNat : Int) = ((a.toNat : Int) - b.toNat) % 2 ^ 32 := by
  rw [BitVec.toNat_sub]
  omega

/-- Settles O13, bit by bit or modulo 2^32. -/
theorem registerArithmeticAndLogic : Obligations.RegisterArithmeticAndLogic := by
  intro s rd rs1 rs2 a b
  exact ⟨⟨decode_encode (i := .add rd rs1 rs2) rfl, completesWithX_of rd (a + b) rfl (BitVec.toNat_add a b)⟩,
    ⟨decode_encode (i := .sub rd rs1 rs2) rfl, completesWithX_of rd (a - b) rfl (sub_toNat a b)⟩,
    ⟨decode_encode (i := .xor rd rs1 rs2) rfl, completesWithX_of rd (a ^^^ b) rfl fun _ _ => BitVec.getLsbD_xor⟩,
    ⟨decode_encode (i := .or rd rs1 rs2) rfl, completesWithX_of rd (a ||| b) rfl fun _ _ => BitVec.getLsbD_or⟩,
    ⟨decode_encode (i := .and rd rs1 rs2) rfl, completesWithX_of rd (a &&& b) rfl fun _ _ => BitVec.getLsbD_and⟩⟩

/-- Settles O14: the amount is the low 5 bits of the register. -/
theorem registerShifts : Obligations.RegisterShifts := by
  intro s rd rs1 rs2 a n
  have hn : n = (shamtOfReg (s.readX rs2)).toNat := (shamtOfReg_toNat _).symm
  refine ⟨⟨decode_encode (i := .sll rd rs1 rs2) rfl, ?_⟩, ⟨decode_encode (i := .srl rd rs1 rs2) rfl, ?_⟩,
    ⟨decode_encode (i := .sra rd rs1 rs2) rfl, ?_⟩⟩
  all_goals rw [hn]
  · exact completesWithX_of rd (shiftLeft a _) rfl (shiftLeft_toNat a _)
  · exact completesWithX_of rd (shiftRightLogical a _) rfl (shiftRightLogical_toNat a _)
  · exact completesWithX_of rd (shiftRightArith a _) rfl (shiftRightArith_toInt a _)

/-- Settles O15, from the comparisons as statements about numbers. -/
theorem registerComparisons : Obligations.RegisterComparisons := by
  intro s rd rs1 rs2 a b
  exact ⟨⟨decode_encode (i := .slt rd rs1 rs2) rfl,
      completesWithX_of rd (wordOfBool (ltSigned a b)) rfl (wordOfBool_eq (ltSigned_iff a b))⟩,
    ⟨decode_encode (i := .sltu rd rs1 rs2) rfl,
      completesWithX_of rd (wordOfBool (ltUnsigned a b)) rfl (wordOfBool_eq (ltUnsigned_iff a b))⟩⟩

-- Register-immediate instructions (41_i_type.md section 1).

/-- Settles O16; the sum of `addi` is the one that makes an effective address. -/
theorem immediateArithmeticAndLogic : Obligations.ImmediateArithmeticAndLogic := by
  intro s rd rs1 imm a
  refine ⟨⟨decode_encode (i := .addi rd rs1 imm) rfl,
      completesWithX_of rd (effectiveAddr s rs1 imm) rfl (effectiveAddr_toNat s rs1 imm)⟩,
    ⟨decode_encode (i := .xori rd rs1 imm) rfl, completesWithX_of rd (a ^^^ signExtend12 imm) rfl fun k hk => ?_⟩,
    ⟨decode_encode (i := .ori rd rs1 imm) rfl, completesWithX_of rd (a ||| signExtend12 imm) rfl fun k hk => ?_⟩⟩
  · rw [BitVec.getLsbD_xor, signExtend12_getLsbD imm k hk]
  · rw [BitVec.getLsbD_or, signExtend12_getLsbD imm k hk]

/-- Settles O17, bit by bit; `x0` reads 0. -/
theorem andImmediateIsBitwiseAndExactly : Obligations.AndImmediateIsBitwiseAndExactly := by
  intro s rd rs1 imm
  refine ⟨decode_encode (i := .andi rd rs1 imm) rfl,
    completesWithX_of rd (s.readX rs1 &&& signExtend12 imm) rfl fun k hk => ?_,
    completesWithX_of rd (s.readX 0 &&& signExtend12 imm) rfl ?_⟩
  · rw [BitVec.getLsbD_and, signExtend12_getLsbD imm k hk]
  · rw [show s.readX 0 = 0#32 from readX_zero s, BitVec.zero_and]
    rfl

theorem ltUnsigned_signExtend12_iff (a : Word) (imm : BitVec 12) :
    ltUnsigned a (signExtend12 imm) = true ↔ (a.toNat : Int) < imm.toInt % 2 ^ 32 := by
  rw [ltUnsigned_iff, ← signExtend12_toNat, Int.ofNat_lt]

/-- Settles O18: the sign-extended immediate as a signed and as an unsigned number. -/
theorem immediateComparisons : Obligations.ImmediateComparisons := by
  intro s rd rs1 imm a
  refine ⟨⟨decode_encode (i := .slti rd rs1 imm) rfl,
      completesWithX_of rd (wordOfBool (ltSigned a (signExtend12 imm))) rfl (wordOfBool_eq ?_)⟩,
    ⟨decode_encode (i := .sltiu rd rs1 imm) rfl,
      completesWithX_of rd (wordOfBool (ltUnsigned a (signExtend12 imm))) rfl
        (wordOfBool_eq (ltUnsigned_signExtend12_iff a imm))⟩⟩
  rw [ltSigned_iff, signExtend12_toInt]

-- Shift-immediates (41_i_type.md section 2): the amount is the low part of the immediate.

theorem shamtOfImm_append (hi : BitVec 7) (shamt : BitVec 5) : shamtOfImm (hi ++ shamt) = shamt := slice_low hi shamt

/-- Settles O19: the amount is the low 5 bits of the immediate. -/
theorem shiftLeftImmediateMasksToFiveBits : Obligations.ShiftLeftImmediateMasksToFiveBits := by
  intro s rd rs1 hi shamt
  refine ⟨decode_encode (i := .slli rd rs1 (hi ++ shamt)) rfl,
    completesWithX_of rd (shiftLeft (s.readX rs1) (shamtOfImm (hi ++ shamt))) rfl ?_⟩
  rw [shamtOfImm_append, shiftLeft_toNat]

/-- `inst[30]` stands at bit 10 of the immediate. -/
theorem bit10_append (b31 b30 : BitVec 1) (b29 shamt : BitVec 5) :
    (b31 ++ b30 ++ b29 ++ shamt).getLsbD 10 = b30.getLsbD 0 := by
  rw [BitVec.getLsbD_append, if_neg (by decide), BitVec.getLsbD_append, if_neg (by decide), BitVec.getLsbD_append,
    if_pos (by decide)]

/-- Settles O20: bit 10 of the immediate is `inst[30]`, and the amount is the low 5 bits. -/
theorem shiftRightImmediates : Obligations.ShiftRightImmediates := by
  intro s rd rs1 b31 b29 shamt
  have hl := bit10_append b31 0#1 b29 shamt
  have ha := bit10_append b31 1#1 b29 shamt
  refine ⟨⟨decode_encode (i := .srli rd rs1 (b31 ++ 0b0#1 ++ b29 ++ shamt)) ?_,
      completesWithX_of rd (shiftRightLogical (s.readX rs1) (shamtOfImm (b31 ++ 0b0#1 ++ b29 ++ shamt))) rfl ?_⟩,
    ⟨decode_encode (i := .srai rd rs1 (b31 ++ 0b1#1 ++ b29 ++ shamt)) ?_,
      completesWithX_of rd (shiftRightArith (s.readX rs1) (shamtOfImm (b31 ++ 0b1#1 ++ b29 ++ shamt))) rfl ?_⟩⟩
  · exact congrArg (!·) hl
  · rw [shamtOfImm_append, shiftRightLogical_toNat]
  · exact ha
  · rw [shamtOfImm_append, shiftRightArith_toInt]

-- Branches (43_b_type.md).

section
variable (rs1 rs2 : XReg) (b12 b11 : BitVec 1) (b10 : BitVec 6) (b4 : BitVec 4)

/-- The B format of an offset that is given by its parts. -/
theorem encodeB_parts (f3 : BitVec 3) (op : BitVec 7) : encodeB (b12 ++ b11 ++ b10 ++ b4 ++ 0b0#1) rs2 rs1 f3 op =
    b12 ++ b10 ++ rs2 ++ rs1 ++ f3 ++ b4 ++ b11 ++ op := by
  obtain ⟨h12, h11, h10, h4⟩ := branch_parts b12 b11 b10 b4
  rw [encodeB, h12, h11, h10, h4]

/-- The offset of a branch is even. -/
theorem evenOffset_parts : evenOffset (b12 ++ b11 ++ b10 ++ b4 ++ 0b0#1 : BitVec 13) = true :=
  appended_zero_even (b12 ++ b11 ++ b10 ++ b4)

end

/-- Settles O31, by the comparison of the branch. -/
theorem branchIfLessUnsigned : Obligations.BranchIfLessUnsigned := by
  intro s rs1 rs2 b12 b11 b10 b4 off
  refine ⟨?_, completesBranch_of ltUnsigned rs1 rs2 off rfl (ltUnsigned_iff _ _)⟩
  rw [← encodeB_parts]
  exact decode_encode (i := .bltu rs1 rs2 off) (evenOffset_parts b12 b11 b10 b4)

/-- Settles O32, each branch by its comparison. -/
theorem branchesMoveThePcAlone : Obligations.BranchesMoveThePcAlone := by
  intro s rs1 rs2 b12 b11 b10 b4 off a b
  have heven : evenOffset off = true := evenOffset_parts b12 b11 b10 b4
  simp only [← encodeB_parts]
  exact ⟨⟨decode_encode (i := .beq rs1 rs2 off) heven, completesBranch_of eqWord rs1 rs2 off rfl (eqWord_iff a b)⟩,
    ⟨decode_encode (i := .bne rs1 rs2 off) heven, completesBranch_of neWord rs1 rs2 off rfl (neWord_iff a b)⟩,
    ⟨decode_encode (i := .blt rs1 rs2 off) heven, completesBranch_of ltSigned rs1 rs2 off rfl (ltSigned_iff a b)⟩,
    ⟨decode_encode (i := .bge rs1 rs2 off) heven, completesBranch_of geSigned rs1 rs2 off rfl (geSigned_iff a b)⟩,
    ⟨decode_encode (i := .bgeu rs1 rs2 off) heven, completesBranch_of geUnsigned rs1 rs2 off rfl (geUnsigned_iff a b)⟩⟩

-- Upper immediates and jumps (44_u_j_type.md; 41_i_type.md section 4).

/-- Settles O33. The immediate is the upper 20 bits of a word. -/
theorem upperImmediates : Obligations.UpperImmediates := by
  intro s rd imm
  refine ⟨⟨decode_encode (i := .lui rd imm) rfl, completesWithX_of rd (upperImm imm) rfl (upperImm_toNat imm)⟩,
    ⟨decode_encode (i := .auipc rd imm) rfl, completesWithX_of rd (s.pc + upperImm imm) rfl ?_⟩⟩
  rw [BitVec.toNat_add, upperImm_toNat]

/-- The J format of an offset that is given by its parts. -/
theorem encodeJ_parts (rd : XReg) (b20 b11 : BitVec 1) (b10 : BitVec 10) (b19 : BitVec 8) (op : BitVec 7) :
    encodeJ (b20 ++ b19 ++ b11 ++ b10 ++ 0b0#1) rd op = b20 ++ b10 ++ b11 ++ b19 ++ rd ++ op := by
  obtain ⟨h20, h19, h11, h10⟩ := jump_parts b20 b19 b11 b10
  rw [encodeJ, h20, h19, h11, h10]

/-- Settles O34: the target is the `jal`'s own `pc` plus the offset. -/
theorem jumpAndLink : Obligations.JumpAndLink := by
  intro s rd b20 b11 b10 b19 off
  have htarget : ((s.pc + signExtend21 off).toNat : Int) = ((s.pc.toNat : Int) + off.toInt) % 2 ^ 32 := by
    have h := signExtend21_toNat off
    rw [BitVec.toNat_add]
    omega
  obtain ⟨t, ht, hj⟩ := jumpsLinking_of_retireAt s rd (s.pc + signExtend21 off)
  refine ⟨?_, t, _, ht, hj, htarget⟩
  rw [← encodeJ_parts]
  exact decode_encode (i := .jal rd off) (appended_zero_even (b20 ++ b19 ++ b11 ++ b10))

/-- Settles O35: the target is an effective address with bit 0 cleared. -/
theorem jumpAndLinkRegister : Obligations.JumpAndLinkRegister := by
  intro s rd rs1 imm
  have htarget : ((effectiveAddr s rs1 imm &&& 0xFFFFFFFE#32).toNat : Int) =
      ((s.readX rs1).toNat + imm.toInt) % 2 ^ 32 / 2 * 2 := by
    rw [clearBit0_toNat, ← effectiveAddr_toNat]
    omega
  obtain ⟨t, ht, hj⟩ := jumpsLinking_of_retireAt s rd (effectiveAddr s rs1 imm &&& 0xFFFFFFFE#32)
  exact ⟨decode_encode (i := .jalr rd rs1 imm) rfl, t, _, ht, hj, htarget⟩

-- The float moves (45_fp_move.md).

/-- Settles O36: the value written is the float register, bit for bit. -/
theorem moveFloatToInteger : Obligations.MoveFloatToInteger := fun s rd fs1 =>
  ⟨decode_encode (i := .fmvXW rd fs1) rfl, completesWithX_of rd (s.readF fs1) rfl rfl⟩

theorem writesF_of_retireNext (s : State) (fd : FReg) (v : Word) :
    ∃ t, retireNext [] (s.writeF fd v) = .next t ∧ WritesF s t fd v :=
  ⟨_, rfl, ⟨rfl, rfl, rfl⟩, fun _ => rfl, readF_writeF_same s fd v, fun r h => readF_writeF_other s fd r v h, fun _ => rfl⟩

/-- Settles O37: what `fmv.w.x` leaves in the float register is what `fmv.x.w` writes. -/
theorem moveIntegerToFloat : Obligations.MoveIntegerToFloat := by
  intro s fd rs1
  obtain ⟨t, ht, hw⟩ := writesF_of_retireNext s fd (s.readX rs1)
  refine ⟨decode_encode (i := .fmvWX fd rs1) rfl, t, ht, hw, fun rd hrd => ?_⟩
  obtain ⟨u, hu, hx⟩ := writesX_of_retireNext t rd (t.readF fd)
  exact ⟨u, hu, (hx.x.dest hrd).trans hw.dest⟩

-- Fence, environment call, breakpoint (46_system.md).

/-- Settles O40: `fence` retires and does nothing else. -/
theorem fenceOnlyAdvancesThePc : Obligations.FenceOnlyAdvancesThePc := fun s imm rs1 rd =>
  ⟨decode_encode (i := .fence imm rs1 rd) rfl, onlyPc_of_retireAt s (s.pc + 4#32)⟩

/-- Settles O41: the default host answers the report with the end of the run. -/
theorem environmentCallReportsAndChangesNothing : Obligations.EnvironmentCallReportsAndChangesNothing := by
  intro s
  refine ⟨s.setReport (.envCall s.pc), rfl, onlyReports_of_setReport s _, fun n hi => ?_⟩
  have hs : step s = .next (s.setReport (.envCall s.pc)) := step_of_fetchInstr hi
  simp only [runFor, hs, setReport_report, exitAlways]

/-- Settles O42: the report is no part of what the fetch reads, so the same `ebreak` runs again. -/
theorem breakpointInstructionReportsAndChangesNothing : Obligations.BreakpointInstructionReportsAndChangesNothing := by
  intro s
  refine ⟨s.setReport (.brk s.pc), rfl, onlyReports_of_setReport s _, fun hi => ⟨?_, fun host n => ?_⟩⟩
  · exact step_of_fetchInstr (i := .ebreak) (s := s.setReport (.brk s.pc)) hi
  · have hs : step s = .next (s.setReport (.brk s.pc)) := step_of_fetchInstr hi
    simp only [runFor, hs, setReport_report]

end Sys2Proof.Machine

/-! PROOFS. Loads, stores and the byte map (20_memory.md, 41_i_type.md section 3, 42_s_type.md, 60_exceptions.md rules R187 to
R190). -/

namespace Sys2Proof.Machine

open Sys2Proof.Laws

-- Two memories in canonical form that read alike are equal (10_state.md section 5).

/-- An address below every listed one is not listed. -/
theorem lookupByte_of_below {m : Memory} {k : Nat} (h : ∀ c ∈ m, k < c.1) : lookupByte m k = unlistedByte := by
  induction m with
  | nil => rfl
  | cons c m ih =>
    rw [List.forall_mem_cons] at h
    rw [lookupByte, if_neg (by omega), ih h.2]

theorem wf_cons {c : Host.Cell} {m : Memory} (h : Memory.wf (c :: m)) :
    (∀ d ∈ m, c.1 < d.1) ∧ c.2 ≠ unlistedByte ∧ c.1 < 2 ^ 32 ∧ Memory.wf m := by
  obtain ⟨hs, hv, hl⟩ := h
  rw [List.pairwise_cons] at hs
  rw [List.forall_mem_cons] at hv hl
  exact ⟨hs.1, hv.1, hl.1, hs.2, hv.2, hl.2⟩

/-- The first listed address of one memory is not below every address of another that reads alike. -/
theorem not_below_of_lookup_eq {c : Host.Cell} {m m' : Memory} (hc : c.2 ≠ unlistedByte) (hlt : c.1 < 2 ^ 32)
    (h : ∀ k < 2 ^ 32, lookupByte (c :: m) k = lookupByte m' k) : ¬ ∀ d ∈ m', c.1 < d.1 := by
  intro hb
  have hk := h c.1 hlt
  rw [lookupByte_of_below hb, lookupByte, if_pos rfl] at hk
  exact hc hk

theorem eq_of_lookupByte_eq {m m' : Memory} (hm : Memory.wf m) (hm' : Memory.wf m')
    (h : ∀ k < 2 ^ 32, lookupByte m k = lookupByte m' k) : m = m' := by
  induction m generalizing m' with
  | nil =>
    cases m' with
    | nil => rfl
    | cons c m' =>
      obtain ⟨_, hv, hl, _⟩ := wf_cons hm'
      exact absurd (fun _ hd => nomatch hd) (not_below_of_lookup_eq (m' := []) hv hl fun k hk => (h k hk).symm)
  | cons c m ih =>
    obtain ⟨hs, hv, hl, hw⟩ := wf_cons hm
    cases m' with
    | nil => exact absurd (fun _ hd => nomatch hd) (not_below_of_lookup_eq (m' := []) hv hl h)
    | cons c' m' =>
      obtain ⟨hs', hv', hl', hw'⟩ := wf_cons hm'
      have h1 : ¬ c.1 < c'.1 := fun hlt => not_below_of_lookup_eq hv hl h
        (List.forall_mem_cons.2 ⟨hlt, fun d hd => hlt.trans (hs' d hd)⟩)
      have h2 : ¬ c'.1 < c.1 := fun hlt => not_below_of_lookup_eq hv' hl' (fun k hk => (h k hk).symm)
        (List.forall_mem_cons.2 ⟨hlt, fun d hd => hlt.trans (hs d hd)⟩)
      have hk : c.1 = c'.1 := by omega
      have hb : c.2 = c'.2 := by
        have := h c.1 hl
        rwa [lookupByte, lookupByte, if_pos rfl, if_pos hk.symm] at this
      obtain rfl : c = c' := Prod.ext hk hb
      congr 1
      refine ih hw hw' fun k hk => ?_
      by_cases hck : c.1 = k
      · rw [← hck, lookupByte_of_below hs, lookupByte_of_below hs']
      · have := h k hk
        rwa [lookupByte, lookupByte, if_neg hck, if_neg hck] at this

/-- Settles O30, by induction on both lists: their first addresses are equal, and so are the bytes there. -/
theorem canonicalMemoriesThatReadAlikeAreEqual : Obligations.CanonicalMemoriesThatReadAlikeAreEqual := by
  intro m m' hm hm' h
  refine eq_of_lookupByte_eq hm hm' fun k hk => ?_
  have hr := h (BitVec.ofNat 32 k)
  rwa [readByte, readByte, BitVec.toNat_ofNat, Nat.mod_eq_of_lt hk] at hr

-- The bytes of a store, read back in any width (20_memory.md sections 1 and 6).

section
variable {m : Memory} (a : Word) (w : Word) (hm : Memory.wf m)
include hm

/-- Byte `k` of a stored word. -/
theorem readByte_writeBytes_word (k : Nat) (hk : k < 4) :
    readByte (writeBytes m a .word w) (a + BitVec.ofNat 32 k) = w.extractLsb' (8 * k) 8 :=
  readByte_writeBytes_stored m a .word w k hm hk

theorem readByte_writeBytes_word_zero : readByte (writeBytes m a .word w) a = w.extractLsb' 0 8 := by
  simpa using readByte_writeBytes_word a w hm 0 (by decide)

theorem readBytes_writeBytes_same (n : Width) (v : BitVec n.bits) : readBytes (writeBytes m a n v) a n = v := by
  have h0 : 0 < widthBytes n → readByte (writeBytes m a n v) a = v.extractLsb' 0 8 := fun h => by
    simpa using readByte_writeBytes_stored m a n v 0 hm h
  have hk := fun k => readByte_writeBytes_stored m a n v k hm
  cases n with
  | byte => exact (h0 (by decide)).trans (slice_all v)
  | half =>
    rw [readBytes, h0 (by decide), hk 1 (by decide)]
    exact (join_slices v 0 8 8).trans (slice_all v)
  | word =>
    rw [readBytes, h0 (by decide), hk 1 (by decide), hk 2 (by decide), hk 3 (by decide)]
    rw [join_slices v 16 8 8, join_slices v 8 8 16, join_slices v 0 8 24]
    exact slice_all v

end

/-- Settles O28: each read joins the bytes that the word store placed. -/
theorem mixedWidthReadsSeeTheStoredBytes : Obligations.MixedWidthReadsSeeTheStoredBytes := by
  intro m a w hm m'
  have h0 : readByte m' a = w.extractLsb' 0 8 := readByte_writeBytes_word_zero a w hm
  have h1 : readByte m' (a + 1#32) = w.extractLsb' 8 8 := readByte_writeBytes_word a w hm 1 (by decide)
  have h2 : readByte m' (a + 2#32) = w.extractLsb' 16 8 := readByte_writeBytes_word a w hm 2 (by decide)
  have h3 : readByte m' (a + 3#32) = w.extractLsb' 24 8 := readByte_writeBytes_word a w hm 3 (by decide)
  have h21 : readByte m' (a + 2#32 + 1#32) = w.extractLsb' 24 8 := by rw [BitVec.add_assoc]; exact h3
  refine ⟨readBytes_writeBytes_same a hm .word w, h0, h1, h2, h3, ?_, ?_⟩
  · rw [readBytes, h0, h1]
    exact join_slices w 0 8 8
  · exact (congrArg₂ (· ++ ·) h21 h2).trans (join_slices w 16 8 8)

/-- Settles O26, from the laws of the bytes of a store. -/
theorem memWriteWritesExactlyItsBytes : Obligations.MemWriteWritesExactlyItsBytes := by
  intro s a n v hm
  refine ⟨fun e he => by rw [memWrite, he], fun hok => ⟨{ s with mem := writeBytes s.mem a n v }, by rw [memWrite, hok], ?_⟩⟩
  refine ⟨fun k hk => readByte_writeBytes_stored s.mem a n v k hm hk, fun b hb => ?_, rfl, rfl, rfl, rfl, rfl⟩
  exact readByte_writeBytes_other s.mem a b n v hm fun k hk he => hb (List.mem_map.2 ⟨k, List.mem_range.2 hk, he.symm⟩)

-- Which regions are open to an access (20_memory.md rule R41).

theorem loadAllowed_eq_false_iff (p : Params) (r : Region) :
    loadAllowed p r = false ↔ r = .unmapped ∨ (r = .text ∧ p.textPerm = .none) := by
  cases r <;> simp [loadAllowed]

theorem storeAllowed_eq_false_iff (p : Params) (r : Region) :
    storeAllowed p r = false ↔ r = .unmapped ∨ r = .reserved ∨ (r = .text ∧ p.textPerm ≠ .loadStore) := by
  cases r <;> simp [storeAllowed]

/-- A region that admits a store admits a load. -/
theorem loadAllowed_of_storeAllowed {p : Params} {r : Region} (h : storeAllowed p r = true) : loadAllowed p r = true := by
  cases r <;> simp_all [loadAllowed, storeAllowed]

/-- A multiple of 4 is aligned for every width. -/
theorem aligned_of_multiple_of_four {a : Nat} (n : Width) (h : a % 4 = 0) : a % widthBytes n = 0 := by
  cases n <;> simp only [widthBytes] <;> omega

-- What a load or store answers, clause by clause.

section
variable (n : Width) (ext : BitVec n.bits → Word) (rd rs1 rs2 : XReg) (imm : BitVec 12) {s : State}

theorem loadInto_of_shut (h : loadAllowed s.params (regionOf s.params (effectiveAddr s rs1 imm)) = false) :
    loadInto n ext rd rs1 imm s = .fault (.loadAccessFault s.pc (effectiveAddr s rs1 imm)) := by
  rcases loadInto_cases n ext rd rs1 imm s with ⟨_, he⟩ | ⟨h1, _⟩ | ⟨h1, _⟩
  · exact he
  · exact nomatch h.symm.trans h1
  · exact nomatch h.symm.trans h1.1

theorem loadInto_of_misaligned (h : loadAllowed s.params (regionOf s.params (effectiveAddr s rs1 imm)) = true)
    (ha : (effectiveAddr s rs1 imm).toNat % widthBytes n ≠ 0) :
    loadInto n ext rd rs1 imm s = .fault (.loadMisaligned s.pc (effectiveAddr s rs1 imm)) := by
  rcases loadInto_cases n ext rd rs1 imm s with ⟨h1, _⟩ | ⟨_, _, he⟩ | ⟨h1, _⟩
  · exact nomatch h1.symm.trans h
  · exact he
  · exact absurd h1.2 ha

theorem loadInto_of_admitted (h : LoadAdmitted s (effectiveAddr s rs1 imm) n) : ∃ ws,
    loadInto n ext rd rs1 imm s = .next (((s.writeX rd (ext (readBytes s.mem (effectiveAddr s rs1 imm) n))).setPc
      (s.pc + 4#32)).setReport (.retired ws)) := by
  rcases loadInto_cases n ext rd rs1 imm s with ⟨h1, _⟩ | ⟨_, h2, _⟩ | ⟨_, ws, _, _, he⟩
  · exact nomatch h1.symm.trans h.1
  · exact absurd h.2 h2
  · exact ⟨ws, he⟩

theorem loadInto_ne_accessFault (h : loadAllowed s.params (regionOf s.params (effectiveAddr s rs1 imm)) = true)
    (pc a : Word) : loadInto n ext rd rs1 imm s ≠ .fault (.loadAccessFault pc a) := by
  rcases loadInto_cases n ext rd rs1 imm s with ⟨h1, _⟩ | ⟨_, _, he⟩ | ⟨_, ws, _, _, he⟩
  · exact nomatch h1.symm.trans h
  · simp [he]
  · simp [he]

theorem storeFrom_of_shut (h : storeAllowed s.params (regionOf s.params (effectiveAddr s rs1 imm)) = false) :
    storeFrom n rs1 rs2 imm s = .fault (.storeAccessFault s.pc (effectiveAddr s rs1 imm)) := by
  rcases storeFrom_cases n rs1 rs2 imm s with ⟨_, he⟩ | ⟨h1, _⟩ | ⟨h1, _⟩
  · exact he
  · exact nomatch h.symm.trans h1
  · exact nomatch h.symm.trans h1.1

theorem storeFrom_of_misaligned (h : storeAllowed s.params (regionOf s.params (effectiveAddr s rs1 imm)) = true)
    (ha : (effectiveAddr s rs1 imm).toNat % widthBytes n ≠ 0) :
    storeFrom n rs1 rs2 imm s = .fault (.storeMisaligned s.pc (effectiveAddr s rs1 imm)) := by
  rcases storeFrom_cases n rs1 rs2 imm s with ⟨h1, _⟩ | ⟨_, _, he⟩ | ⟨h1, _⟩
  · exact nomatch h1.symm.trans h
  · exact he
  · exact absurd h1.2 ha

theorem storeFrom_of_admitted (h : StoreAdmitted s (effectiveAddr s rs1 imm) n) : storeFrom n rs1 rs2 imm s =
    .next ((({ s with mem := writeBytes s.mem (effectiveAddr s rs1 imm) n (truncateTo n (s.readX rs2)) } : State).setPc
      (s.pc + 4#32)).setReport (.retired [])) := by
  rcases storeFrom_cases n rs1 rs2 imm s with ⟨h1, _⟩ | ⟨_, h2, _⟩ | ⟨_, he⟩
  · exact nomatch h1.symm.trans h.1
  · exact absurd h.2 h2
  · exact he

/-- Each of the five loads is a load of some width with some extension. -/
theorem exec_load {i : Instr} (h : i ∈ [Instr.lb rd rs1 imm, .lh rd rs1 imm, .lw rd rs1 imm, .lbu rd rs1 imm, .lhu rd rs1 imm])
    (s : State) : ∃ n ext, exec i s = loadInto n ext rd rs1 imm s := by
  simp only [List.mem_cons, List.not_mem_nil, or_false] at h
  rcases h with rfl | rfl | rfl | rfl | rfl
  · exact ⟨.byte, fun v => v.signExtend 32, rfl⟩
  · exact ⟨.half, fun v => v.signExtend 32, rfl⟩
  · exact ⟨.word, fun v => v, rfl⟩
  · exact ⟨.byte, fun v => v.zeroExtend 32, rfl⟩
  · exact ⟨.half, fun v => v.zeroExtend 32, rfl⟩

/-- Each of the three stores is a store of some width. -/
theorem exec_store {i : Instr} (h : i ∈ [Instr.sb rs1 rs2 imm, .sh rs1 rs2 imm, .sw rs1 rs2 imm]) (s : State) :
    ∃ n, exec i s = storeFrom n rs1 rs2 imm s := by
  simp only [List.mem_cons, List.not_mem_nil, or_false] at h
  rcases h with rfl | rfl | rfl
  · exact ⟨.byte, rfl⟩
  · exact ⟨.half, rfl⟩
  · exact ⟨.word, rfl⟩

end

/-- Settles O22: the region is tested first, then the alignment, in every load. -/
theorem loadFaults : Obligations.LoadFaults := by
  intro s rd rs1 imm a r
  refine ⟨fun hshut i hi => ?shut, fun hopen => ?_⟩
  case shut =>
    obtain ⟨n, ext, he⟩ := exec_load rd rs1 imm hi s
    exact he.trans (loadInto_of_shut n ext rd rs1 imm ((loadAllowed_eq_false_iff _ _).2 hshut))
  have hl : loadAllowed s.params r = true := by
    rw [← Bool.not_eq_false, loadAllowed_eq_false_iff]
    exact hopen
  refine ⟨fun ha => ⟨loadInto_of_misaligned .half _ rd rs1 imm hl ha, loadInto_of_misaligned .half _ rd rs1 imm hl ha⟩,
    fun ha => loadInto_of_misaligned .word _ rd rs1 imm hl ha, fun i hi => ?_⟩
  obtain ⟨n, ext, he⟩ := exec_load rd rs1 imm hi s
  rw [he]
  refine ⟨loadInto_ne_accessFault n ext rd rs1 imm hl s.pc a, fun ha => ?_⟩
  obtain ⟨ws, ht⟩ := loadInto_of_admitted n ext rd rs1 imm ⟨hl, aligned_of_multiple_of_four n ha⟩
  exact ⟨_, ht⟩

/-- Settles O25: the region is tested first, then the alignment, in every store. -/
theorem storeFaults : Obligations.StoreFaults := by
  intro s rs1 rs2 imm a r shut
  refine ⟨fun hshut i hi => ?shut, fun hopen => ?_⟩
  case shut =>
    obtain ⟨n, he⟩ := exec_store rs1 rs2 imm hi s
    exact he.trans (storeFrom_of_shut n rs1 rs2 imm ((storeAllowed_eq_false_iff _ _).2 hshut))
  have hl : storeAllowed s.params r = true := by
    rw [← Bool.not_eq_false, storeAllowed_eq_false_iff]
    exact hopen
  exact ⟨storeFrom_of_misaligned .half rs1 rs2 imm hl, storeFrom_of_misaligned .word rs1 rs2 imm hl⟩

/-- The value of a loaded word from its bytes. -/
theorem readBytes_word_toNat (m : Memory) (a : Word) : (readBytes m a .word).toNat =
    (readByte m (a + 3#32)).toNat * 2 ^ 24 + (readByte m (a + 2#32)).toNat * 2 ^ 16 + (readByte m (a + 1#32)).toNat * 2 ^ 8 +
      (readByte m a).toNat := by
  rw [readBytes, append_byte_toNat, append_byte_toNat, append_byte_toNat]
  omega

/-- Settles O21: each load extends the bytes it reads, and the value of joined bytes is known. -/
theorem loadsReadTheirBytes : Obligations.LoadsReadTheirBytes := by
  intro s rd rs1 imm a b0 b1 b2 b3
  refine ⟨effectiveAddr_toNat s rs1 imm, decode_encode (i := .lb rd rs1 imm) rfl, decode_encode (i := .lh rd rs1 imm) rfl,
    decode_encode (i := .lw rd rs1 imm) rfl, decode_encode (i := .lbu rd rs1 imm) rfl,
    decode_encode (i := .lhu rd rs1 imm) rfl, ?lb, ?lh, ?lw, ?lbu, ?lhu⟩
  case lb =>
    exact fun ha => completesLoad_of .byte (fun v => v.signExtend 32) rd rs1 imm rfl ha
      (BitVec.toInt_signExtend_of_le (by decide))
  case lh =>
    exact fun ha => completesLoad_of .half (fun v => v.signExtend 32) rd rs1 imm rfl ha
      ((BitVec.toInt_signExtend_of_le (by decide)).trans (append_byte_toInt b1 b0))
  case lw => exact fun ha => completesLoad_of .word (fun v => v) rd rs1 imm rfl ha (readBytes_word_toNat s.mem a)
  case lbu =>
    exact fun ha => completesLoad_of .byte (fun v => v.zeroExtend 32) rd rs1 imm rfl ha
      (BitVec.toNat_setWidth_of_le (by decide))
  case lhu =>
    exact fun ha => completesLoad_of .half (fun v => v.zeroExtend 32) rd rs1 imm rfl ha
      ((BitVec.toNat_setWidth_of_le (by decide)).trans (append_byte_toNat b1 b0))

/-- The S format of an immediate that is given by its parts. -/
theorem encodeS_parts (hi : BitVec 7) (lo rs2 rs1 : BitVec 5) (f3 : BitVec 3) (op : BitVec 7) :
    encodeS (hi ++ lo) rs2 rs1 f3 op = hi ++ rs2 ++ rs1 ++ f3 ++ lo ++ op := by
  rw [encodeS, slice_top hi lo, slice_low hi lo]

/-- Settles O24: each word is the S format of its parts, and an admitted store writes its bytes. -/
theorem storesWriteTheirBytes : Obligations.StoresWriteTheirBytes := by
  intro s rs1 rs2 hi lo hm imm a
  simp only [← encodeS_parts]
  exact ⟨effectiveAddr_toNat s rs1 imm, decode_encode (i := .sb rs1 rs2 imm) rfl, decode_encode (i := .sh rs1 rs2 imm) rfl,
    decode_encode (i := .sw rs1 rs2 imm) rfl, completesStore_of .byte rs1 rs2 imm hm rfl,
    completesStore_of .half rs1 rs2 imm hm rfl, completesStore_of .word rs1 rs2 imm hm rfl⟩

/-- What an admitted load leaves in its register. -/
theorem readX_of_admitted_load (n : Width) (ext : BitVec n.bits → Word) (rs1 : XReg) {rd : XReg} (imm : BitVec 12) {s : State}
    (hrd : rd ≠ 0) (h : LoadAdmitted s (effectiveAddr s rs1 imm) n) : ∃ u, loadInto n ext rd rs1 imm s = .next u ∧
      u.readX rd = ext (readBytes s.mem (effectiveAddr s rs1 imm) n) := by
  obtain ⟨ws, hu⟩ := loadInto_of_admitted n ext rd rs1 imm h
  exact ⟨_, hu, readX_writeX_same s rd _ hrd⟩

/-- A load of the width of an admitted store, after it and at the same place, gives the stored bits to its extension. -/
theorem store_then_load (n : Width) (rs1 rs2 : XReg) {rd : XReg} (imm : BitVec 12) {s : State} (hm : Memory.wf s.mem)
    (hrd : rd ≠ 0) (ha : StoreAdmitted s (effectiveAddr s rs1 imm) n) : ∃ t, storeFrom n rs1 rs2 imm s = .next t ∧
      ∀ ext, ∃ u, loadInto n ext rd rs1 imm t = .next u ∧ u.readX rd = ext (truncateTo n (s.readX rs2)) := by
  obtain ⟨t, ht, hmem, hparams, haddr⟩ : ∃ t, storeFrom n rs1 rs2 imm s = .next t ∧
      t.mem = writeBytes s.mem (effectiveAddr s rs1 imm) n (truncateTo n (s.readX rs2)) ∧ t.params = s.params ∧
      effectiveAddr t rs1 imm = effectiveAddr s rs1 imm := ⟨_, storeFrom_of_admitted n rs1 rs2 imm ha, rfl, rfl, rfl⟩
  have hadmitted : LoadAdmitted t (effectiveAddr t rs1 imm) n := by
    rw [LoadAdmitted, hparams, haddr]
    exact ⟨loadAllowed_of_storeAllowed ha.1, ha.2⟩
  refine ⟨t, ht, fun ext => ?_⟩
  obtain ⟨u, hu, hr⟩ := readX_of_admitted_load n ext rs1 imm hrd hadmitted
  exact ⟨u, hu, by rw [hr, haddr, hmem, readBytes_writeBytes_same _ hm]⟩

/-- Settles O27, for each width with each of its extensions. -/
theorem storeThenLoadRoundTrips : Obligations.StoreThenLoadRoundTrips := by
  intro s rs1 rs2 rd imm hm hrd a v
  refine ⟨fun ha => ?byte, fun ha => ?half, fun ha => ?word⟩
  case byte =>
    obtain ⟨t, ht, hu⟩ := store_then_load .byte rs1 rs2 imm hm hrd ha
    exact ⟨t, ht, hu fun v => v.signExtend 32, hu fun v => v.zeroExtend 32⟩
  case half =>
    obtain ⟨t, ht, hu⟩ := store_then_load .half rs1 rs2 imm hm hrd ha
    exact ⟨t, ht, hu fun v => v.signExtend 32, hu fun v => v.zeroExtend 32⟩
  case word =>
    obtain ⟨t, ht, hu⟩ := store_then_load .word rs1 rs2 imm hm hrd ha
    obtain ⟨u, he, hr⟩ := hu fun v => v
    exact ⟨t, ht, u, he, hr.trans (BitVec.setWidth_eq v)⟩

end Sys2Proof.Machine
